-- ==== Sys2Proof/Word.lean ====
section
/-! DEFINITION. The word types of UART-RB: a data byte, a counter or result value, a command word. -/

namespace Sys2Proof

/-- One data element, `BYTE_W` = 8 bits (00 R5, 20 R43). -/
abbrev Byte := BitVec 8

/-- A counter or a response value, 16 bits, unsigned (10 R25, 30 R64). -/
abbrev Half := BitVec 16

end Sys2Proof
end

