-- ==== Sys2Proof/Syntax.lean ====
section
/-! DEFINITION. The nine operations of 30 R60, the words of the two input ports, and the pseudo-operations of 30 R76. -/

namespace Sys2Proof

/-- STAT's selector `sel` (30 R68). -/
inductive StatSel where
  /-- `sel` = 0: the flags. -/
  | flags
  /-- `sel` = 1: RX_CNT. -/
  | rxCount
  /-- `sel` = 2: TX_CNT. -/
  | txCount
  /-- `sel` = 3: InvalidArgument. -/
  | illegal
  deriving DecidableEq, Repr

/-- The operations of spec/opcode_table.json, one constructor a row. Fields that 30 R73 calls ignored are no operands.
-/
inductive Instr where
  /-- 40 R90. -/
  | gdc
  /-- 40 R91: instance, `create_stream`, `send_cr_after_nl`. -/
  | init (inst : Nat) (cs crnl : Bool)
  /-- 40 R92. -/
  | start (inst : Nat)
  /-- 43 R130: instance, byte to send. -/
  | putc (inst : Nat) (byte : Byte)
  /-- 43 R132. -/
  | getc (inst : Nat)
  /-- 44 R142: instance, selector. -/
  | stat (inst : Nat) (sel : StatSel)
  /-- 44 R140: counter number. -/
  | cntrd (k : Nat)
  /-- 44 R141. -/
  | cntrst
  /-- 42 R110: the instance whose interrupt fired. -/
  | irq (inst : Nat)
  deriving DecidableEq, Repr

/-- A word presented on one of the two input ports (30 R60). -/
inductive PortWord where
  /-- A command word CMD of the foreground agent (30 R61). -/
  | cmd (w : BitVec 16)
  /-- An event word EVT of the interrupt agent (30 R71). -/
  | evt (w : BitVec 4)
  deriving DecidableEq, Repr

/-- Why the decoder gives no operation for a word. -/
inductive DecodeError where
  /-- The operation code is 0x0 or 0x9 to 0xF (30 R63). -/
  | reservedOpcode (op : Nat)
  deriving DecidableEq, Repr

/-- The pseudo-operations of 30 R76: they add no operation code. -/
inductive PseudoOp where
  /-- Stream write of one byte. -/
  | swr (sid : Nat) (byte : Byte)
  /-- Stream read of one byte. -/
  | srd (sid : Nat)
  /-- One PUTC per byte, in order. -/
  | puts (inst : Nat) (bytes : List Byte)
  /-- `n` IRQ events, each with `sr` = 0x80. -/
  | drain (inst n : Nat)
  deriving DecidableEq, Repr

/-- The operations a pseudo-operation stands for (30 R76). -/
def PseudoOp.expand : PseudoOp → List Instr
  | .swr sid b => [.putc sid b]
  | .srd sid => [.getc sid]
  | .puts inst bs => bs.map (Instr.putc inst)
  | .drain inst n => List.replicate n (.irq inst)

/-- The HAL answers a pseudo-operation's events take: DRAIN's are status words 0x80 (30 R76). -/
def PseudoOp.answers : PseudoOp → List Byte
  | .swr _ _ => []
  | .srd _ => []
  | .puts _ _ => []
  | .drain _ n => List.replicate n 0x80

/-- The instance an operation names; GDC, CNTRD and CNTRST name none (30 R62). -/
def Instr.instOf : Instr → Option Nat
  | .gdc => none
  | .init i _ _ => some i
  | .start i => some i
  | .putc i _ => some i
  | .getc i => some i
  | .stat i _ => some i
  | .cntrd _ => none
  | .cntrst => none
  | .irq i => some i

end Sys2Proof
end

