-- ==== Sys2Proof/WellFormed.lean ====
section
/-! DEFINITION. Which terms of Instr have a word: every operand fits its field of 30 R61, R69 or R71. -/

namespace Sys2Proof

/-- The instance fits the 4-bit `inst` field (30 R61, R71). -/
def instFits (i : Nat) : Bool := decide (i < 16)

/-- The counter number fits `arg[2:0]` (30 R69). -/
def counterFits (k : Nat) : Bool := decide (k < 8)

/-- Every operand of the operation fits its field. A value that fits may still be illegal: that is a response. -/
def Instr.wf : Instr → Bool
  | .gdc => true
  | .init i _ _ => instFits i
  | .start i => instFits i
  | .putc i _ => instFits i
  | .getc i => instFits i
  | .stat i _ => instFits i
  | .cntrd k => counterFits k
  | .cntrst => true
  | .irq i => instFits i

end Sys2Proof
end

