-- ==== Sys2Proof/Decode.lean ====
section
/-! DEFINITION. Decoding the words of the two input ports (30 R61, R62, R71) and encoding operations into them. -/

namespace Sys2Proof

/-- `op`, bits 15:12 of a command word (30 R61). -/
def opField (w : BitVec 16) : Nat := (w.extractLsb' 12 4).toNat

/-- `inst`, bits 11:8 of a command word (30 R61). -/
def instField (w : BitVec 16) : Nat := (w.extractLsb' 8 4).toNat

/-- `arg`, bits 7:0 of a command word (30 R61). -/
def argField (w : BitVec 16) : Byte := w.extractLsb' 0 8

/-- `arg[0]` of INIT is `create_stream` (30 R66). -/
def csField (arg : Byte) : Bool := arg.getLsbD 0

/-- `arg[1]` of INIT is `send_cr_after_nl` (30 R66). -/
def crnlField (arg : Byte) : Bool := arg.getLsbD 1

/-- `arg[1:0]` of STAT is `sel` (30 R68). -/
def selField (arg : Byte) : StatSel :=
  match arg.getLsbD 1, arg.getLsbD 0 with
  | false, false => .flags
  | false, true => .rxCount
  | true, false => .txCount
  | true, true => .illegal

/-- `arg[2:0]` of CNTRD is `k` (30 R69). -/
def counterField (arg : Byte) : Nat := (arg.extractLsb' 0 3).toNat

/-- The opcode map of 30 R62: `op` alone selects the operation. -/
def decodeCommand (w : BitVec 16) : Except DecodeError Instr :=
  match opField w with
  | 1 => .ok .gdc
  | 2 => .ok (.init (instField w) (csField (argField w)) (crnlField (argField w)))
  | 3 => .ok (.start (instField w))
  | 4 => .ok (.putc (instField w) (argField w))
  | 5 => .ok (.getc (instField w))
  | 6 => .ok (.stat (instField w) (selField (argField w)))
  | 7 => .ok (.cntrd (counterField (argField w)))
  | 8 => .ok .cntrst
  | op => .error (.reservedOpcode op)

/-- An event word is the instance, and nothing else (30 R71). -/
def decodeEvent (w : BitVec 4) : Instr := .irq w.toNat

/-- The operation a presented word selects, or the reason it selects none. -/
def decode : PortWord → Except DecodeError Instr
  | .cmd w => decodeCommand w
  | .evt w => .ok (decodeEvent w)

/-- A command word from its three fields: op at bit 12, inst at bit 8, arg at bit 0 (30 R61). -/
def commandWord (op inst : Nat) (arg : Byte) : PortWord :=
  .cmd (BitVec.ofNat 16 (op * 4096 + inst * 256 + arg.toNat))

/-- INIT's operand byte: crnl at bit 1, cs at bit 0, ignored bits zero (30 R66, R75). -/
def configArg (cs crnl : Bool) : Byte := BitVec.ofNat 8 (2 * crnl.toNat + cs.toNat)

/-- STAT's operand byte, ignored bits zero (30 R68, R75). -/
def selArg : StatSel → Byte
  | .flags => 0
  | .rxCount => 1
  | .txCount => 2
  | .illegal => 3

/-- The canonical word of an operation: ignored fields zero (30 R75, D14). -/
def encode : Instr → PortWord
  | .gdc => commandWord 1 0 0
  | .init i cs crnl => commandWord 2 i (configArg cs crnl)
  | .start i => commandWord 3 i 0
  | .putc i b => commandWord 4 i b
  | .getc i => commandWord 5 i 0
  | .stat i sel => commandWord 6 i (selArg sel)
  | .cntrd k => commandWord 7 0 (BitVec.ofNat 8 k)
  | .cntrst => commandWord 8 0 0
  | .irq i => .evt (BitVec.ofNat 4 i)

/-- The bits of a command word that take part in decoding; 30 R73 calls the others ignored. -/
def usedMask (op : Nat) : BitVec 16 :=
  match op with
  | 1 => 0xF000
  | 2 => 0xFF03
  | 3 => 0xFF00
  | 4 => 0xFFFF
  | 5 => 0xFF00
  | 6 => 0xFF03
  | 7 => 0xF007
  | 8 => 0xF000
  | _ => 0xF000

/-- A word with its ignored bits cleared (30 R73). -/
def canonicalWord : PortWord → PortWord
  | .cmd w => .cmd (w &&& usedMask (opField w))
  | .evt w => .evt w

/-- The port word of `nbits` bits, as spec/opcode_table.json numbers them: 16 bits are a command word, 8 (the table's 4
in whole bytes) an event word, whose bits above 3 must be 0 (30 R74). Log 14. -/
def portWord (nbits w : Nat) : Option PortWord :=
  if nbits = 16 then
    if w < 65536 then some (.cmd (BitVec.ofNat 16 w)) else none
  else if nbits ≤ 8 then
    if w < 16 then some (.evt (BitVec.ofNat 4 w)) else none
  else none

/-- The instruction the decoder reads from the table's bits `w`. -/
def decodeTableWord (nbits w : Nat) : Option Instr :=
  match portWord nbits w with
  | none => none
  | some p =>
    match decode p with
    | .ok i => some i
    | .error _ => none

end Sys2Proof
end

