-- ==== Sys2Proof/Config.lean ====
section
/-! DEFINITION. The implementation parameters (00 R5) and the free values the spec leaves open. -/

namespace Sys2Proof

/-- The OPEN parameters of 00 R5. -/
structure Params where
  /-- `N_INST`, the number of instances. -/
  nInst : Nat
  /-- `RX_CAP`, the receive buffer's capacity in bytes. -/
  rxCap : Nat
  /-- `TX_CAP`, the transmit buffer's capacity in bytes. -/
  txCap : Nat
  /-- `DEFAULT_STREAM_INST`; no rule of the block reads it (D24). -/
  defaultStream : Option Nat
  deriving DecidableEq, Repr

/-- The bounds 00 R5 puts on the parameters. -/
def Params.ok (p : Params) : Bool :=
  decide (1 ≤ p.nInst) && decide (p.nInst ≤ 16) && decide (1 ≤ p.rxCap) &&
    decide (p.rxCap < p.txCap) && decide (p.txCap ≤ 65535) &&
    (match p.defaultStream with
     | none => true
     | some d => decide (d < p.nInst))

/-- CFG_T, the named test configuration of 00 R5. -/
def Params.cfgT : Params := ⟨2, 4, 8, none⟩

namespace Config

/-- FREE VALUE: the environment's answer to the n-th HAL read that no listed answer serves. 20 R47: "a free 8-bit draw
under no law". Log 3. -/
opaque halAnswer : Nat → Byte

/-- FREE VALUE: LINE_EN[i] at reset, "unspecified" in 70 R181. Log 6. -/
opaque resetLineEn : Nat → Bool

/-- FREE VALUE: RXIE[i] at reset, "unspecified" in 70 R181. Log 6. -/
opaque resetRxie : Nat → Bool

/-- FREE VALUE: TXEIE[i] at reset, "unspecified" in 70 R181. Log 6. -/
opaque resetTxeie : Nat → Bool

end Config

end Sys2Proof
end

