-- ==== Sys2Proof/Machine/State.lean ====
section
/-! DEFINITION. The state of UART-RB (10 R10), the reasons a step can stop, and the state after reset (70 R181). -/

namespace Sys2Proof.Machine

/-- The two ring buffers of an instance (10 R21); also the two array spaces (20 R40). -/
inductive Dir where
  | rx
  | tx
  deriving DecidableEq, Repr

/-- The six error counters in the order CNT[0] to CNT[5] (10 R26). -/
inductive CounterId where
  | ore
  | ne
  | fe
  | pe
  | txOvr
  | rxOvr
  deriving DecidableEq, Repr

/-- The response's error kinds (30 R64, 60 R150); codes 5 to 7 are never produced (U12). -/
inductive ErrCode where
  | ok
  | invalidArgument
  | invalidState
  | badInstance
  | overrun
  deriving DecidableEq, Repr

/-- A response word, format R (30 R64). -/
structure Rsp where
  err : ErrCode
  val : Half
  deriving DecidableEq, Repr

/-- The nine HAL transactions of 20 R44, a read with the value the environment answered. -/
inductive HalTx where
  | statusRead (inst : Nat) (sr : Byte)
  | dataRead (inst : Nat) (byte : Byte)
  | dataWrite (inst : Nat) (byte : Byte)
  | lineEnable (inst : Nat)
  | lineDisable (inst : Nat)
  | rxieEnable (inst : Nat)
  | rxieDisable (inst : Nat)
  | txeieEnable (inst : Nat)
  | txeieDisable (inst : Nat)
  deriving DecidableEq, Repr

/-- A backing array: (index, byte) pairs, indices strictly rising, no byte 0x00; an unlisted index holds 0x00 (log 7).
-/
abbrev Memory := List Host.Cell

/-- A ring buffer's registers and array (10 R21). Indices and the count are bounded naturals (D33). -/
structure Ring where
  get : Nat
  put : Nat
  cnt : Nat
  buf : Memory
  deriving DecidableEq, Repr

/-- One entry of the Instance Registry (10 R10, R11). -/
structure Inst where
  /-- ACTIVE: the hardware handle is bound (10 R15). -/
  active : Bool
  /-- CFG_CS: `create_stream` (10 R16). -/
  cfgCs : Bool
  /-- CFG_CRNL: `send_cr_after_nl` (10 R16). -/
  cfgCrnl : Bool
  /-- STREAM_PUB: the stream identity is published (10 R17). -/
  streamPub : Bool
  /-- LINE_EN: the interrupt line's enable at the interrupt controller (10 R18). -/
  lineEn : Bool
  /-- RXIE: the receive-data-available enable (10 R19). -/
  rxie : Bool
  /-- TXEIE: the transmit-empty enable (10 R20). -/
  txeie : Bool
  /-- RX_GET, RX_PUT, RX_CNT, RX_BUF. -/
  rx : Ring
  /-- TX_GET, TX_PUT, TX_CNT, TX_BUF. -/
  tx : Ring
  deriving DecidableEq, Repr

/-- The bank of six 16-bit counters shared by all instances (10 R25). -/
structure Counters where
  ore : Half
  ne : Half
  fe : Half
  pe : Half
  txOvr : Half
  rxOvr : Half
  deriving DecidableEq, Repr

/-- Why the machine stops with a fault. -/
inductive Fault where
  /-- A ring-buffer access at an index the array does not have (20 R42). Raised by `try_push` and `try_pop` through
  `memRead` and `memWrite`, in states no run reaches. Safe (log 8). -/
  | noSuchElement (space : Dir) (index : Nat)
  deriving DecidableEq, Repr

/-- Why the machine gives an instruction no meaning. -/
inductive Refusal where
  /-- Raised by `exec` for an instruction that has no meaning yet; safe. No arm does. -/
  | notModelled (mnemonic : String)
  deriving DecidableEq, Repr

/-- Everything a step reads or writes. The first five fields are the spec's parameters and state (00 R5, 10 R10); N_INST
is the registry's length. The others are the model's ports and observations (30 R60, 20 R46, R47). -/
structure State where
  /-- RX_CAP. -/
  rxCap : Nat
  /-- TX_CAP. -/
  txCap : Nat
  /-- DEFAULT_STREAM_INST. -/
  defaultStream : Option Nat
  /-- The Instance Registry, entry `i` at position `i`. -/
  insts : List Inst
  /-- CNT[0..5]. -/
  cnt : Counters
  /-- The words presented and not yet taken, in the order of their steps (log 1). -/
  inputs : List PortWord
  /-- The environment's answers to the HAL reads to come, in order (log 3). -/
  halIn : List Byte
  /-- The free answers drawn so far (log 3). -/
  draws : Nat
  /-- HALLOG, oldest first (20 R46). -/
  halLog : List HalTx
  /-- The responses answered, oldest first (30 R60). -/
  rspLog : List Rsp
  deriving DecidableEq, Repr

/-- N_INST: the registry "has exactly `N_INST` entries" (10 R11). -/
def State.nInst (s : State) : Nat := s.insts.length

/-- The parameters a state was built with (00 R5). -/
def State.params (s : State) : Params := ⟨s.nInst, s.rxCap, s.txCap, s.defaultStream⟩

/-- What 70 R181 leaves unspecified in one registry entry. -/
structure ResetDraw where
  cfgCs : Bool
  cfgCrnl : Bool
  lineEn : Bool
  rxie : Bool
  txeie : Bool
  rx : Ring
  tx : Ring
  deriving DecidableEq, Repr

/-- A registry entry at reset: ACTIVE and STREAM_PUB 0, the rest as drawn (70 R181). -/
def Inst.reset (d : ResetDraw) : Inst :=
  { active := false, cfgCs := d.cfgCs, cfgCrnl := d.cfgCrnl, streamPub := false,
    lineEn := d.lineEn, rxie := d.rxie, txeie := d.txeie, rx := d.rx, tx := d.tx }

/-- All six counters 0 (70 R181). -/
def Counters.zero : Counters := ⟨0, 0, 0, 0, 0, 0⟩

/-- The state after reset of the configuration `p` when the unspecified values of instance `i` are drawn as `d i`
(70 R180, R181). -/
def State.resetWith (p : Params) (d : Nat → ResetDraw) : State :=
  { rxCap := p.rxCap, txCap := p.txCap, defaultStream := p.defaultStream,
    insts := (List.range p.nInst).map (fun i => Inst.reset (d i)),
    cnt := Counters.zero,
    inputs := [], halIn := [], draws := 0, halLog := [], rspLog := [] }

/-- An empty buffer at index 0 with every byte 0x00. -/
def Ring.zero : Ring := ⟨0, 0, 0, []⟩

/-- The draw of `State.reset`: configuration and buffers 0, as 70 R181 allows (log 5); the three enables free, as it
asks (log 6). -/
def ResetDraw.standard (i : Nat) : ResetDraw :=
  { cfgCs := false, cfgCrnl := false, lineEn := Config.resetLineEn i, rxie := Config.resetRxie i,
    txeie := Config.resetTxeie i, rx := Ring.zero, tx := Ring.zero }

/-- The machine right after reset, in the configuration CFG_T (log 4). -/
def State.reset : State := State.resetWith Params.cfgT ResetDraw.standard

end Sys2Proof.Machine
end

