-- ==== Sys2Proof/Machine/Ops.lean ====
section
/-! DEFINITION. The named operations over arrays, ring buffers, counters, registry entries and the three ports, and the
one operation that reports an error (00 R7, 60 R151). -/

namespace Sys2Proof.Machine

/-- What a meaning answers. -/
abbrev Result := Host.Outcome State Fault Refusal

/-! ### Backing arrays (20 R40 to R42) -/

/-- The byte an array holds at an index; an unlisted index holds 0x00. -/
def Memory.byteAt : Memory → Nat → Byte
  | [], _ => 0
  | (k, v) :: rest, a => if k = a then v else Memory.byteAt rest a

/-- The entry an array lists for a byte: none for 0x00. -/
def cellFor (a : Nat) (b : Byte) : Memory := if b = 0 then [] else [(a, b)]

/-- The array with one byte replaced, in canonical form. -/
def Memory.store : Memory → Nat → Byte → Memory
  | [], a, b => cellFor a b
  | (k, v) :: rest, a, b =>
    if a < k then cellFor a b ++ (k, v) :: rest
    else if a = k then cellFor a b ++ rest
    else (k, v) :: Memory.store rest a b

/-- Indices from `lo` on, strictly rising, and no byte 0x00. -/
def Memory.wfFrom (lo : Nat) : Memory → Bool
  | [] => true
  | (k, v) :: rest => decide (lo ≤ k) && v != 0 && Memory.wfFrom (k + 1) rest

/-- The canonical form of an array. -/
def Memory.wf (m : Memory) : Bool := Memory.wfFrom 0 m

/-- Every listed index is one the array has, 0..CAP-1 (20 R42). -/
def Memory.within (cap : Nat) (m : Memory) : Bool := m.all (fun c => decide (c.1 < cap))

/-- `MemRead(space, addr, 1)` (00 R7). -/
def memRead (d : Dir) (cap : Nat) (m : Memory) (a : Nat) : Except Fault Byte :=
  if a < cap then .ok (m.byteAt a) else .error (.noSuchElement d a)

/-- `MemWrite(space, addr, 1, b)` (00 R7). -/
def memWrite (d : Dir) (cap : Nat) (m : Memory) (a : Nat) (b : Byte) : Except Fault Memory :=
  if a < cap then .ok (m.store a b) else .error (.noSuchElement d a)

/-- INIT's zero fill: 0x00 written to every index 0..CAP-1 (40 R91). -/
def zeroFill (cap : Nat) (m : Memory) : Memory :=
  (List.range cap).foldl (fun m j => m.store j 0) m

/-! ### Ring buffers (41 R100, R101) -/

/-- Index advance, a true modulo (41 R103(a)). -/
def advance (cap x : Nat) : Nat := (x + 1) % cap

/-- A push on one ring: none when full, else the ring after it (41 R100). -/
def ringPush (d : Dir) (cap : Nat) (r : Ring) (b : Byte) : Except Fault (Option Ring) :=
  if r.cnt = cap then .ok none
  else
    match memWrite d cap r.buf r.put b with
    | .error e => .error e
    | .ok m => .ok (some { r with buf := m, put := advance cap r.put, cnt := r.cnt + 1 })

/-- A pop on one ring: none when empty, else the oldest byte and the ring after it (41 R101). -/
def ringPop (d : Dir) (cap : Nat) (r : Ring) : Except Fault (Option (Byte × Ring)) :=
  if r.cnt = 0 then .ok none
  else
    match memRead d cap r.buf r.get with
    | .error e => .error e
    | .ok b => .ok (some (b, { r with get := advance cap r.get, cnt := r.cnt - 1 }))

/-- The queued bytes, oldest first (10 R23). -/
def Ring.contents (cap : Nat) (r : Ring) : List Byte :=
  (List.range r.cnt).map (fun j => r.buf.byteAt ((r.get + j) % cap))

/-! ### Counters (41 R102, 10 R26) -/

/-- `sat_inc16` on one counter's value: plus one, stopping at 0xFFFF (41 R102). -/
def satInc (c : Half) : Half := if c = 0xFFFF then c else c + 1

/-- The value of one counter. -/
def Counters.get (c : Counters) : CounterId → Half
  | .ore => c.ore
  | .ne => c.ne
  | .fe => c.fe
  | .pe => c.pe
  | .txOvr => c.txOvr
  | .rxOvr => c.rxOvr

/-- The bank with one counter incremented (41 R102). -/
def Counters.bump (c : Counters) : CounterId → Counters
  | .ore => { c with ore := satInc c.ore }
  | .ne => { c with ne := satInc c.ne }
  | .fe => { c with fe := satInc c.fe }
  | .pe => { c with pe := satInc c.pe }
  | .txOvr => { c with txOvr := satInc c.txOvr }
  | .rxOvr => { c with rxOvr := satInc c.rxOvr }

/-- The counter of number `k` (10 R26); none for `k` ≥ 6. -/
def counterOf : Nat → Option CounterId
  | 0 => some .ore
  | 1 => some .ne
  | 2 => some .fe
  | 3 => some .pe
  | 4 => some .txOvr
  | 5 => some .rxOvr
  | _ => none

/-- The overrun counter of a buffer: CNT[5] for RX, CNT[4] for TX (41 R100). -/
def overrunCounter : Dir → CounterId
  | .rx => .rxOvr
  | .tx => .txOvr

/-- `sat_inc16(k)` (41 R102). -/
def satInc16 (k : CounterId) (s : State) : State := { s with cnt := s.cnt.bump k }

/-! ### Registry entries (10 R10) -/

/-- The entry read where the registry has none. No meaning reads it: each checks its instance first (60 R155). -/
def Inst.absent : Inst :=
  { active := false, cfgCs := false, cfgCrnl := false, streamPub := false, lineEn := false, rxie := false,
    txeie := false, rx := Ring.zero, tx := Ring.zero }

/-- The registry entry of instance `i`. -/
def State.inst (s : State) (i : Nat) : Inst := (s.insts[i]?).getD Inst.absent

/-- The state with the entry of instance `i` replaced. -/
def State.setInst (s : State) (i : Nat) (c : Inst) : State := { s with insts := s.insts.set i c }

/-- One ring of an entry. -/
def Inst.ring (c : Inst) : Dir → Ring
  | .rx => c.rx
  | .tx => c.tx

/-- An entry with one ring replaced. -/
def Inst.setRing (c : Inst) (d : Dir) (r : Ring) : Inst :=
  match d with
  | .rx => { c with rx := r }
  | .tx => { c with tx := r }

/-- The capacity of a direction (00 R5). -/
def State.cap (s : State) : Dir → Nat
  | .rx => s.rxCap
  | .tx => s.txCap

/-- The byte of array `d` of instance `i` at index `a`. -/
def State.bufByte (s : State) (d : Dir) (i a : Nat) : Byte := ((s.inst i).ring d).buf.byteAt a

/-- The stream identity instance `i` offers: its number, once published (43 R133(a), (b)). -/
def State.streamIdentity (s : State) (i : Nat) : Option Nat :=
  if (s.inst i).streamPub then some i else none

/-- `try_push(i, B, byte)` (41 R100). -/
def tryPush (d : Dir) (i : Nat) (b : Byte) (s : State) : Except Fault (Bool × State) :=
  match ringPush d (s.cap d) ((s.inst i).ring d) b with
  | .error e => .error e
  | .ok none => .ok (false, satInc16 (overrunCounter d) s)
  | .ok (some r) => .ok (true, s.setInst i ((s.inst i).setRing d r))

/-- `try_pop(i, B)` (41 R101). -/
def tryPop (d : Dir) (i : Nat) (s : State) : Except Fault (Option Byte × State) :=
  match ringPop d (s.cap d) ((s.inst i).ring d) with
  | .error e => .error e
  | .ok none => .ok (none, s)
  | .ok (some (b, r)) => .ok (some b, s.setInst i ((s.inst i).setRing d r))

/-! ### The HAL port (20 R44) -/

/-- A transaction recorded in HALLOG (20 R46). -/
def logHal (t : HalTx) (s : State) : State := { s with halLog := s.halLog ++ [t] }

/-- The environment's answer to the next HAL read: the next listed one, else a free value (20 R47). -/
def State.nextAnswer (s : State) : Byte :=
  match s.halIn with
  | b :: _ => b
  | [] => Config.halAnswer s.draws

/-- The state once that answer is taken. -/
def State.takeAnswer (s : State) : State :=
  match s.halIn with
  | _ :: rest => { s with halIn := rest }
  | [] => { s with draws := s.draws + 1 }

/-- `HAL.status_read(i)` (20 R44). -/
def halStatusRead (i : Nat) (s : State) : Byte × State :=
  (s.nextAnswer, logHal (.statusRead i s.nextAnswer) s.takeAnswer)

/-- `HAL.data_read(i)` (20 R44). -/
def halDataRead (i : Nat) (s : State) : Byte × State :=
  (s.nextAnswer, logHal (.dataRead i s.nextAnswer) s.takeAnswer)

/-- `HAL.data_write(i, b)` (20 R44). -/
def halDataWrite (i : Nat) (b : Byte) (s : State) : State := logHal (.dataWrite i b) s

/-- `HAL.line_enable(i)`; `LINE_EN[i] <- 1` (20 R44). -/
def halLineEnable (i : Nat) (s : State) : State :=
  logHal (.lineEnable i) (s.setInst i { s.inst i with lineEn := true })

/-- `HAL.line_disable(i)`; `LINE_EN[i] <- 0` (20 R44). -/
def halLineDisable (i : Nat) (s : State) : State :=
  logHal (.lineDisable i) (s.setInst i { s.inst i with lineEn := false })

/-- `HAL.rxie_enable(i)`; `RXIE[i] <- 1` (20 R44). -/
def halRxieEnable (i : Nat) (s : State) : State :=
  logHal (.rxieEnable i) (s.setInst i { s.inst i with rxie := true })

/-- `HAL.rxie_disable(i)`; `RXIE[i] <- 0` (20 R44). -/
def halRxieDisable (i : Nat) (s : State) : State :=
  logHal (.rxieDisable i) (s.setInst i { s.inst i with rxie := false })

/-- `HAL.txeie_enable(i)`; `TXEIE[i] <- 1` (20 R44). -/
def halTxeieEnable (i : Nat) (s : State) : State :=
  logHal (.txeieEnable i) (s.setInst i { s.inst i with txeie := true })

/-- `HAL.txeie_disable(i)`; `TXEIE[i] <- 0` (20 R44). -/
def halTxeieDisable (i : Nat) (s : State) : State :=
  logHal (.txeieDisable i) (s.setInst i { s.inst i with txeie := false })

/-! ### The response port (30 R64) and errors (60 R151) -/

/-- One response answered. -/
def respond (r : Rsp) (s : State) : State := { s with rspLog := s.rspLog ++ [r] }

/-- `return OK(v)` (00 R7). -/
def answerOk (v : Half) (s : State) : Result := .next (respond ⟨.ok, v⟩ s)

/-- `raise <ErrorKind>`: the command ends with that error and `val` = 0; nothing is undone and control goes nowhere
(00 R7, 60 R151, C10). -/
def raiseError (e : ErrCode) (s : State) : Result := .next (respond ⟨e, 0⟩ s)

/-- The checks START, PUTC and GETC share, in the order of 60 R155: the instance exists, then it is active. -/
def onActive (i : Nat) (s : State) (body : Result) : Result :=
  if s.nInst ≤ i then raiseError .invalidArgument s
  else if (s.inst i).active = false then raiseError .badInstance s
  else body

/-- A command word with a reserved operation code: InvalidArgument, nothing else (30 R63). -/
def rejectReserved (s : State) : Result := raiseError .invalidArgument s

/-! ### The input ports (30 R60, 20 R50) -/

/-- The word whose step comes next and the state once it is taken; none when nothing is presented. -/
def takeInput (s : State) : Option (PortWord × State) :=
  match s.inputs with
  | [] => none
  | w :: rest => some (w, { s with inputs := rest })

/-- One more word presented, to be taken first. -/
def presentFirst (w : PortWord) (s : State) : State := { s with inputs := w :: s.inputs }

end Sys2Proof.Machine
end

