-- ==== Sys2Proof/Machine/Operands.lean ====
section
/-! DEFINITION. Result words and operand values (30 R64 to R69, R72, R77). -/

namespace Sys2Proof.Machine

/-- A line feed, the only byte with special treatment (30 R67). -/
def lineFeed : Byte := 0x0A

/-- A carriage return (43 R131). -/
def carriageReturn : Byte := 0x0D

/-- GDC's result: `create_stream` and `send_cr_after_nl` both 1 in the bit positions of 30 R66 (30 R72). -/
def defaultConfigVal : Half := 0x0003

/-- A byte zero-extended into `val` (30 R65, R77). -/
def zextByte (b : Byte) : Half := b.setWidth 16

/-- An occupancy count zero-extended into `val` (30 R68). -/
def zextCount (n : Nat) : Half := BitVec.ofNat 16 n

/-- The error code's number (30 R64). -/
def ErrCode.code : ErrCode → Nat
  | .ok => 0
  | .invalidArgument => 1
  | .invalidState => 2
  | .badInstance => 3
  | .overrun => 4

/-- The 19-bit response word, `err` in bits 18:16 (30 R64). -/
def Rsp.word (r : Rsp) : BitVec 19 := BitVec.ofNat 19 (r.err.code * 65536 + r.val.toNat)

/-- Whether PUTC queues a carriage return before `b`: translation is on and `b` is a line feed (43 R131). -/
def translates (c : Inst) (b : Byte) : Bool := c.cfgCrnl && b == lineFeed

end Sys2Proof.Machine
end

