-- ==== Sys2Proof/Machine/Flags.lean ====
section
/-! DEFINITION. The status word's conditions (30 R70), the error classifier (42 R114) and STAT's flag word (30 R68). -/

namespace Sys2Proof.Machine

/-- `sr[5]`, receive-data-available (30 R70). -/
def srRxne (sr : Byte) : Bool := sr.getLsbD 5

/-- `sr[7]`, transmit-register-empty (30 R70). -/
def srTxe (sr : Byte) : Bool := sr.getLsbD 7

/-- `sr[3]`, hardware receive overrun (30 R70). -/
def srOre (sr : Byte) : Bool := sr.getLsbD 3

/-- `sr[2]`, noise (30 R70). -/
def srNe (sr : Byte) : Bool := sr.getLsbD 2

/-- `sr[1]`, framing error (30 R70). -/
def srFe (sr : Byte) : Bool := sr.getLsbD 1

/-- `sr[0]`, parity error (30 R70). -/
def srPe (sr : Byte) : Bool := sr.getLsbD 0

/-- `if cond: sat_inc16(k)`. -/
def countIf (cond : Bool) (k : CounterId) (s : State) : State := if cond then satInc16 k s else s

/-- The error-status classifier: each set error bit counts once, independently (42 R114). -/
def classify (sr : Byte) (s : State) : State :=
  countIf (srPe sr) .pe (countIf (srFe sr) .fe (countIf (srNe sr) .ne (countIf (srOre sr) .ore s)))

/-- STAT's result for `sel` = 0 on an active instance: `{0, STREAM_PUB, CFG_CRNL, CFG_CS, 1}` (44 R142). -/
def statFlags (c : Inst) : Half :=
  BitVec.ofNat 12 0 ++ BitVec.ofBool c.streamPub ++ BitVec.ofBool c.cfgCrnl ++ BitVec.ofBool c.cfgCs ++
    BitVec.ofBool true

end Sys2Proof.Machine
end

