-- ==== Sys2Proof/Machine/Diagnostics.lean ====
section
/-! DEFINITION. The Diagnostics Surface operations STAT, CNTRD, CNTRST (44 R140 to R142). -/

namespace Sys2Proof.Machine

/-- STAT's answer on an active instance (44 R142); `sel` = 3 was refused before. -/
def statVal (s : State) (i : Nat) : StatSel → Half
  | .flags => statFlags (s.inst i)
  | .rxCount => zextCount (s.inst i).rx.cnt
  | .txCount => zextCount (s.inst i).tx.cnt
  | .illegal => 0

/-- STAT (44 R142). -/
def execStat (i : Nat) (sel : StatSel) (s : State) : Result :=
  if s.nInst ≤ i then raiseError .invalidArgument s
  else if sel = .illegal then raiseError .invalidArgument s
  else if (s.inst i).active = false then answerOk 0 s
  else answerOk (statVal s i sel) s

/-- CNTRD (44 R140). -/
def execCntrd (k : Nat) (s : State) : Result :=
  match counterOf k with
  | none => raiseError .invalidArgument s
  | some c => answerOk (s.cnt.get c) s

/-- CNTRST (44 R141). -/
def execCntrst (s : State) : Result := answerOk 0 { s with cnt := Counters.zero }

end Sys2Proof.Machine
end

