-- ==== Sys2Proof/Machine/Irq.lean ====
section
/-! DEFINITION. The Interrupt Handler IRQ (42 R110 to R122). -/

namespace Sys2Proof.Machine

/-- Step 3, reception: one data read, the classifier, the push whatever the error bits say (42 R113 to R115). -/
def irqReceive (i : Nat) (sr : Byte) (s : State) : Except Fault State :=
  if srRxne sr then
    match tryPush .rx i (halDataRead i s).1 (classify sr (halDataRead i s).2) with
    | .error e => .error e
    | .ok (_, s1) => .ok s1
  else .ok s

/-- Step 4, transmission: one pop, then the data write, or TXEIE off when nothing is left (42 R116, R117). -/
def irqTransmit (i : Nat) (sr : Byte) (s : State) : Except Fault State :=
  if srTxe sr then
    match tryPop .tx i s with
    | .error e => .error e
    | .ok (some b, s1) => .ok (halDataWrite i b s1)
    | .ok (none, s1) => .ok (halTxeieDisable i s1)
  else .ok s

/-- Steps 2 to 4 on an active instance: one status read serves both tests (42 R112, R118). -/
def irqActive (i : Nat) (s : State) : Result :=
  match irqReceive i (halStatusRead i s).1 (halStatusRead i s).2 with
  | .error e => .fault e
  | .ok s1 =>
    match irqTransmit i (halStatusRead i s).1 s1 with
    | .error e => .fault e
    | .ok s2 => .next s2

/-- IRQ: no effect out of range (42 R120), the line off when inactive (42 R111), else the handler. -/
def execIrq (i : Nat) (s : State) : Result :=
  if s.nInst ≤ i then .next s
  else if (s.inst i).active = false then .next (halLineDisable i s)
  else irqActive i s

end Sys2Proof.Machine
end

