-- ==== Sys2Proof/Machine/Registry.lean ====
section
/-! DEFINITION. The Instance Registry operations GDC, INIT, START (40 R90 to R92). -/

namespace Sys2Proof.Machine

/-- GDC (40 R90). -/
def execGdc (s : State) : Result := answerOk defaultConfigVal s

/-- A ring with both indices and the count 0 and every element written 0x00 (40 R91). -/
def clearedRing (cap : Nat) (r : Ring) : Ring := ⟨0, 0, 0, zeroFill cap r.buf⟩

/-- INIT's register writes before its HAL transactions (40 R91). -/
def initRegisters (i : Nat) (cs crnl : Bool) (s : State) : State :=
  s.setInst i { s.inst i with
    cfgCs := cs, cfgCrnl := crnl, streamPub := false,
    rx := clearedRing s.rxCap (s.inst i).rx, tx := clearedRing s.txCap (s.inst i).tx }

/-- `ACTIVE[i] <- 1`: the hardware handle is bound (40 R91, 10 R15). -/
def bindHandle (i : Nat) (s : State) : State := s.setInst i { s.inst i with active := true }

/-- INIT (40 R91). -/
def execInit (i : Nat) (cs crnl : Bool) (s : State) : Result :=
  if s.nInst ≤ i then raiseError .invalidArgument s
  else if (s.inst i).active then raiseError .invalidState s
  else
    answerOk 0 (bindHandle i (halTxeieDisable i (halRxieDisable i (halLineDisable i (initRegisters i cs crnl s)))))

/-- `if CFG_CS[i] == 1: STREAM_PUB[i] <- 1` (40 R92). -/
def publishStream (i : Nat) (s : State) : State :=
  if (s.inst i).cfgCs then s.setInst i { s.inst i with streamPub := true } else s

/-- START (40 R92). -/
def execStart (i : Nat) (s : State) : Result :=
  onActive i s (answerOk 0 (publishStream i (halLineEnable i (halRxieEnable i s))))

end Sys2Proof.Machine
end

