-- ==== Sys2Proof/Machine/Stream.lean ====
section
/-! DEFINITION. The Stream Adapter operations PUTC and GETC (43 R130 to R132). -/

namespace Sys2Proof.Machine

/-- PUTC's pushes: the carriage return first where one is due, the byte unless that push failed (43 R130, R131). -/
def putcPushes (i : Nat) (b : Byte) (s : State) : Except Fault (Bool × State) :=
  if translates (s.inst i) b then
    match tryPush .tx i carriageReturn s with
    | .error e => .error e
    | .ok (false, s1) => .ok (false, s1)
    | .ok (true, s1) => tryPush .tx i b s1
  else tryPush .tx i b s

/-- `if was_empty: HAL.txeie_enable(i)` (43 R130). -/
def enableIfWasEmpty (wasEmpty : Bool) (i : Nat) (s : State) : State :=
  if wasEmpty then halTxeieEnable i s else s

/-- PUTC's body on an active instance; the changes made before an Overrun stand (43 R130). -/
def putcActive (i : Nat) (b : Byte) (s : State) : Result :=
  match putcPushes i b s with
  | .error e => .fault e
  | .ok (pushed, s1) =>
    if pushed then answerOk 0 (enableIfWasEmpty ((s.inst i).tx.cnt == 0) i s1)
    else raiseError .overrun (enableIfWasEmpty ((s.inst i).tx.cnt == 0) i s1)

/-- PUTC (43 R130). -/
def execPutc (i : Nat) (b : Byte) (s : State) : Result := onActive i s (putcActive i b s)

/-- GETC's body on an active instance (43 R132). -/
def getcActive (i : Nat) (s : State) : Result :=
  match tryPop .rx i s with
  | .error e => .fault e
  | .ok (none, s1) => raiseError .overrun s1
  | .ok (some b, s1) => answerOk (zextByte b) s1

/-- GETC (43 R132). -/
def execGetc (i : Nat) (s : State) : Result := onActive i s (getcActive i s)

end Sys2Proof.Machine
end

