-- ==== Sys2Proof/Machine/Dispatch.lean ====
section
/-! DEFINITION. exec: one arm per operation. -/

namespace Sys2Proof.Machine

def exec (i : Instr) (s : State) : Host.Outcome State Fault Refusal :=
  match i with
  | .gdc => Sys2Proof.Machine.execGdc s
  | .init inst cs crnl => Sys2Proof.Machine.execInit inst cs crnl s
  | .start inst => Sys2Proof.Machine.execStart inst s
  | .putc inst byte => Sys2Proof.Machine.execPutc inst byte s
  | .getc inst => Sys2Proof.Machine.execGetc inst s
  | .stat inst sel => Sys2Proof.Machine.execStat inst sel s
  | .cntrd k => Sys2Proof.Machine.execCntrd k s
  | .cntrst => Sys2Proof.Machine.execCntrst s
  | .irq inst => Sys2Proof.Machine.execIrq inst s

end Sys2Proof.Machine
end

