-- ==== Sys2Proof/Machine/Step.lean ====
section
/-! DEFINITION. One step: the next presented word, decoded and executed (20 R50). -/

namespace Sys2Proof.Machine

/-- One step of the machine: with no word presented nothing happens (10 R13, log 2); a reserved command word is answered
(30 R63); any other word runs its operation. -/
def step (s : State) : Host.Outcome State Fault Refusal :=
  match takeInput s with
  | none => .next s
  | some (w, s1) =>
    match decode w with
    | .ok i => exec i s1
    | .error _ => rejectReserved s1

/-- The word of spec/opcode_table.json's bits `w` presented so that the next step takes it (log 2, log 14). -/
def State.withFetchWord (s : State) (nbits w : Nat) : State :=
  match portWord nbits w with
  | none => s
  | some p => presentFirst p s

end Sys2Proof.Machine
end

