-- ==== Sys2Proof/Safety.lean ====
section
/-! DEFINITION. The terms claims are made in: the invariant of every state the machine reaches, the life cycle of an
instance, the wire, the queued bytes, runs and their histories, and what two resets may differ in. -/

namespace Sys2Proof.Machine

/-! ### The invariant -/

/-- The ranges of a ring's registers (10 R10) and the form of its array (log 7). -/
structure RingInv (cap : Nat) (r : Ring) : Prop where
  /-- The get index is in 0..CAP-1. -/
  get_lt : r.get < cap
  /-- The put index is in 0..CAP-1. -/
  put_lt : r.put < cap
  /-- The count is in 0..CAP. -/
  cnt_le : r.cnt ≤ cap
  /-- The array is in canonical form. -/
  wf : r.buf.wf = true
  /-- The array lists no index it does not have. -/
  within : r.buf.within cap = true

/-- `B_PUT = (B_GET + B_CNT) mod CAP` (10 R23). -/
def RingLinked (cap : Nat) (r : Ring) : Prop := r.put = (r.get + r.cnt) % cap

/-- What holds of a registry entry between steps. -/
structure InstInv (rxCap txCap : Nat) (c : Inst) : Prop where
  rx : RingInv rxCap c.rx
  tx : RingInv txCap c.tx
  /-- 10 R23, for an active instance. -/
  rxLinked : c.active = true → RingLinked rxCap c.rx
  /-- 10 R23, for an active instance. -/
  txLinked : c.active = true → RingLinked txCap c.tx
  /-- 10 R29: bytes queued on an active instance keep the transmit-empty interrupt enabled. -/
  txEnabled : c.active = true → 0 < c.tx.cnt → c.txeie = true
  /-- Of an active instance RXIE and LINE_EN are set together, by START (40 R93). -/
  started : c.active = true → c.rxie = c.lineEn
  /-- The stream is published exactly on a started instance with `create_stream` (10 R17, 40 R92). -/
  published : c.streamPub = (c.active && c.cfgCs && c.lineEn)

/-- The invariant of every state reached from reset. -/
structure Inv (s : State) : Prop where
  /-- The parameters are in the bounds of 00 R5. -/
  params : s.params.ok = true
  insts : ∀ i, i < s.nInst → InstInv s.rxCap s.txCap (s.inst i)

/-- A draw of the values 70 R181 leaves unspecified that the registers can hold (10 R10). -/
structure DrawOk (p : Params) (d : Nat → ResetDraw) : Prop where
  rx : ∀ i, RingInv p.rxCap (d i).rx
  tx : ∀ i, RingInv p.txCap (d i).tx

/-! ### The life cycle of an instance (40 R93) -/

/-- The three conditions of 40 R93. -/
inductive LifeCycle where
  | inert
  | initialized
  | started
  deriving DecidableEq, Repr

/-- The condition the state bits of an entry determine (40 R93). -/
def Inst.lifeCycle (c : Inst) : LifeCycle :=
  if c.active = false then .inert else if c.lineEn then .started else .initialized

/-! ### Observations (20 R46) -/

/-- `WIRE[i]`: the bytes written to the data register of instance `i`, in order. -/
def wire (i : Nat) (log : List HalTx) : List Byte :=
  log.filterMap (fun t => match t with
    | .dataWrite j b => if j = i then some b else none
    | _ => none)

/-- The bytes read from the data register of instance `i`, in order. -/
def dataReads (i : Nat) (log : List HalTx) : List Byte :=
  log.filterMap (fun t => match t with
    | .dataRead j b => if j = i then some b else none
    | _ => none)

/-- The bytes queued in one buffer of instance `i`, oldest first (10 R23); an inert instance has none. -/
def queued (d : Dir) (i : Nat) (s : State) : List Byte :=
  if (s.inst i).active then ((s.inst i).ring d).contents (s.cap d) else []

/-- ENV_GATED (60 R158): the next word is no event of an instance whose line is disabled. The model does not assume it
(log 9). -/
def EnvGated (s : State) : Prop :=
  ∀ w rest, s.inputs = PortWord.evt w :: rest → (s.inst w.toNat).lineEn = true

/-- The answers one IRQ event on an active instance takes: the status word, and the received byte when it has RXNE. -/
def eventAnswers (sr dr : Byte) : List Byte := if srRxne sr then [sr, dr] else [sr]

/-! ### Runs -/

/-- The operations of a list, one after the other. -/
def execAll : List Instr → State → Result
  | [], s => .next s
  | i :: rest, s =>
    match exec i s with
    | .next t => execAll rest t
    | .fault e => .fault e
    | .refused r => .refused r

/-- The bytes PUTC would queue for `b` with room enough (43 R131). -/
def putcBytes (crnl : Bool) (b : Byte) : List Byte :=
  if crnl && b == 0x0A then [0x0D, 0x0A] else [b]

/-- The bytes one operation pushes onto the transmit buffer of instance `i`: as many of PUTC's as there is room for
(43 R131's table). -/
def txAccepted (i : Nat) (ins : Instr) (s : State) : List Byte :=
  match ins with
  | .putc j b =>
    if j = i && (s.inst i).active then
      (putcBytes (s.inst i).cfgCrnl b).take (s.txCap - (s.inst i).tx.cnt)
    else []
  | _ => []

/-- `TXIN[i]` of 20 R52 along a run: the bytes pushed onto the transmit buffer of instance `i`, in order. -/
def txIn (i : Nat) : List Instr → State → List Byte
  | [], _ => []
  | ins :: rest, s =>
    match exec ins s with
    | .next t => txAccepted i ins s ++ txIn i rest t
    | _ => []

/-- The bytes one step from `s` to `t` reads from the data register of instance `i` and has room for. -/
def rxAccepted (i : Nat) (s t : State) : List Byte :=
  if (s.inst i).rx.cnt < s.rxCap then dataReads i (t.halLog.drop s.halLog.length) else []

/-- `RXIN[i]` of 20 R52 along a run: the received bytes whose push succeeded, in order. -/
def rxIn (i : Nat) : List Instr → State → List Byte
  | [], _ => []
  | ins :: rest, s =>
    match exec ins s with
    | .next t => rxAccepted i s t ++ rxIn i rest t
    | _ => []

/-- The byte a successful GETC on instance `i` answers in the step from `s` to `t`. -/
def rxTaken (i : Nat) (ins : Instr) (s t : State) : List Byte :=
  match ins with
  | .getc j =>
    if j = i then
      (t.rspLog.drop s.rspLog.length).filterMap (fun r => if r.err = .ok then some (r.val.setWidth 8) else none)
    else []
  | _ => []

/-- The bytes returned by successful GETC commands on instance `i` along a run, in order (20 R52). -/
def rxOut (i : Nat) : List Instr → State → List Byte
  | [], _ => []
  | ins :: rest, s =>
    match exec ins s with
    | .next t => rxTaken i ins s t ++ rxOut i rest t
    | _ => []

/-! ### A ring against a plain queue (41 R104) -/

/-- One primitive on a ring. -/
inductive RingOp where
  | push (b : Byte)
  | pop
  deriving DecidableEq, Repr

/-- What a primitive answers: whether the byte was stored, or the byte popped if any. -/
inductive RingAnswer where
  | pushed (ok : Bool)
  | popped (b : Option Byte)
  deriving DecidableEq, Repr

/-- A run of primitives on one ring: the answers and the ring after it. -/
def ringRun (d : Dir) (cap : Nat) : List RingOp → Ring → Except Fault (List RingAnswer × Ring)
  | [], r => .ok ([], r)
  | .push b :: ops, r =>
    match ringPush d cap r b with
    | .error e => .error e
    | .ok o =>
      match ringRun d cap ops (o.getD r) with
      | .error e => .error e
      | .ok (as, r') => .ok (.pushed o.isSome :: as, r')
  | .pop :: ops, r =>
    match ringPop d cap r with
    | .error e => .error e
    | .ok none =>
      match ringRun d cap ops r with
      | .error e => .error e
      | .ok (as, r') => .ok (.popped none :: as, r')
    | .ok (some (b, r1)) =>
      match ringRun d cap ops r1 with
      | .error e => .error e
      | .ok (as, r') => .ok (.popped (some b) :: as, r')

/-- The same primitives on a first-in first-out list of at most `cap` bytes. -/
def queueRun (cap : Nat) : List RingOp → List Byte → List RingAnswer × List Byte
  | [], q => ([], q)
  | .push b :: ops, q =>
    if q.length < cap then
      (.pushed true :: (queueRun cap ops (q ++ [b])).1, (queueRun cap ops (q ++ [b])).2)
    else (.pushed false :: (queueRun cap ops q).1, (queueRun cap ops q).2)
  | .pop :: ops, [] => (.popped none :: (queueRun cap ops []).1, (queueRun cap ops []).2)
  | .pop :: ops, b :: q => (.popped (some b) :: (queueRun cap ops q).1, (queueRun cap ops q).2)

/-- The bytes of the pushes that were answered true, in order. -/
def storedBytes : List RingOp → List RingAnswer → List Byte
  | .push b :: ops, .pushed true :: as => b :: storedBytes ops as
  | _ :: ops, _ :: as => storedBytes ops as
  | _, _ => []

/-- The bytes the pops returned, in order. -/
def takenBytes (as : List RingAnswer) : List Byte :=
  as.filterMap (fun a => match a with
    | .popped b => b
    | .pushed _ => none)

/-! ### What a run can show of the values drawn at reset (70 R181) -/

/-- Two states that differ at most in registers of inert instances other than ACTIVE and STREAM_PUB. -/
structure SameSeen (s t : State) : Prop where
  params : s.params = t.params
  cnt : s.cnt = t.cnt
  inputs : s.inputs = t.inputs
  halIn : s.halIn = t.halIn
  draws : s.draws = t.draws
  halLog : s.halLog = t.halLog
  rspLog : s.rspLog = t.rspLog
  active : ∀ i, (s.inst i).active = (t.inst i).active
  streamPub : ∀ i, (s.inst i).streamPub = (t.inst i).streamPub
  entry : ∀ i, (s.inst i).active = true → s.inst i = t.inst i

end Sys2Proof.Machine
end

