-- ==== Sys2Proof/Certificates/Slice0/Obligations.lean ====
section
/-! DEFINITION. The statements about the model. -/

open Sys2Proof Sys2Proof.Machine

/-! ### Encoding -/

/-- Words written out from the layouts of 30 R61, R62, R66 to R69 and R71 (the table of 95 part 2.1) decode to the
operations they stand for. -/
def Obligations.SpecWordsDecode : Prop :=
  decode (.cmd 0x1FFF) = .ok .gdc ∧
  decode (.cmd 0x2102) = .ok (.init 1 false true) ∧
  decode (.cmd 0x20FF) = .ok (.init 0 true true) ∧
  decode (.cmd 0x31FF) = .ok (.start 1) ∧
  decode (.cmd 0x410A) = .ok (.putc 1 0x0A) ∧
  decode (.cmd 0x5100) = .ok (.getc 1) ∧
  decode (.cmd 0x6106) = .ok (.stat 1 .txCount) ∧
  decode (.cmd 0x6003) = .ok (.stat 0 .illegal) ∧
  decode (.cmd 0x70FD) = .ok (.cntrd 5) ∧
  decode (.cmd 0x7F06) = .ok (.cntrd 6) ∧
  decode (.cmd 0x8ABC) = .ok .cntrst ∧
  decode (.evt 0x1) = .ok (.irq 1)

/-- Decoding the canonical word of a well-formed operation gives it back, every operand at every value. -/
def Obligations.DecodeEncodeRoundTrip : Prop :=
  ∀ i : Instr, i.wf = true → decode (encode i) = .ok i

/-- The other direction: a word that decodes is, but for its ignored bits (30 R73), the canonical word of what it decodes
to, and what it decodes to is well-formed. That the canonical word has its ignored bits zero is how 30 R75 assembles, and
the encoder's choice (log 13). -/
def Obligations.EncodeDecodeCanonical : Prop :=
  ∀ (w : PortWord) (i : Instr), decode w = .ok i → i.wf = true ∧ encode i = canonicalWord w

/-- Exactly the command words with operation code 0x0 or 0x9 to 0xF select no operation (30 R62, R63). -/
def Obligations.ReservedOpcodesAlone : Prop :=
  ∀ w : BitVec 16, (∃ e, decode (.cmd w) = .error e) ↔ (w.toNat / 4096 = 0 ∨ 9 ≤ w.toNat / 4096)

/-- Two command words that agree on the bits their operation uses decode alike: 30 R73's "Ignored". -/
def Obligations.IgnoredBitsDoNotMatter : Prop :=
  ∀ w v : BitVec 16, w &&& usedMask (opField w) = v &&& usedMask (opField w) → decode (.cmd w) = decode (.cmd v)

/-- The response word's layout and the five error numbers (30 R64). -/
def Obligations.ResponseWordLayout : Prop :=
  ∀ v : Half, (Rsp.word ⟨.ok, v⟩).toNat = v.toNat ∧
    (Rsp.word ⟨.invalidArgument, v⟩).toNat = 1 * 65536 + v.toNat ∧
    (Rsp.word ⟨.invalidState, v⟩).toNat = 2 * 65536 + v.toNat ∧
    (Rsp.word ⟨.badInstance, v⟩).toNat = 3 * 65536 + v.toNat ∧
    (Rsp.word ⟨.overrun, v⟩).toNat = 4 * 65536 + v.toNat

/-! ### The step -/

/-- A step takes the first presented word and, when it decodes, runs its operation on the state without that word. -/
def Obligations.StepRunsDecodedInstruction : Prop :=
  ∀ (s : State) (w : PortWord) (rest : List PortWord) (i : Instr),
    s.inputs = w :: rest → decode w = .ok i → step s = exec i { s with inputs := rest }

/-- A reserved command word changes no state, issues no HAL transaction and answers InvalidArgument with `val` = 0
(30 R63). -/
def Obligations.ReservedCommandRejected : Prop :=
  ∀ (s : State) (w : BitVec 16) (rest : List PortWord),
    s.inputs = .cmd w :: rest → (w.toNat / 4096 = 0 ∨ 9 ≤ w.toNat / 4096) →
      step s = .next { s with inputs := rest, rspLog := s.rspLog ++ [⟨.invalidArgument, 0⟩] }

/-- With no word presented a step changes nothing. The model's choice (log 2): no step is caused. -/
def Obligations.NothingPresentedNothingDone : Prop :=
  ∀ s : State, s.inputs = [] → step s = .next s

/-- The table word presented by `withFetchWord` is the one the next step runs. The model's choice (log 2, log 14). -/
def Obligations.PresentedTableWordRuns : Prop :=
  ∀ (s : State) (nbits w : Nat) (i : Instr), decodeTableWord nbits w = some i →
    step (s.withFetchWord nbits w) = exec i s

/-! ### Instance Registry -/

/-- GDC answers 0x0003 and does nothing else, in every state (40 R90, 30 R72). -/
def Obligations.GdcAnswersDefault : Prop :=
  ∀ s : State, exec .gdc s = .next { s with rspLog := s.rspLog ++ [⟨.ok, 0x0003⟩] }

/-- INIT of an inert instance (40 R91): the new entry in full, the three transactions in order, OK; every array byte
0x00; every other entry, the counters and everything else as before. -/
def Obligations.InitBindsAndClears : Prop :=
  ∀ (s : State) (i : Nat) (cs crnl : Bool), Inv s → i < s.nInst → (s.inst i).active = false →
    ∃ bx bt : Memory,
      exec (.init i cs crnl) s = .next { s with
        insts := s.insts.set i
          { active := true, cfgCs := cs, cfgCrnl := crnl, streamPub := false, lineEn := false, rxie := false,
            txeie := false, rx := ⟨0, 0, 0, bx⟩, tx := ⟨0, 0, 0, bt⟩ },
        halLog := s.halLog ++ [.lineDisable i, .rxieDisable i, .txeieDisable i],
        rspLog := s.rspLog ++ [⟨.ok, 0⟩] } ∧
      (∀ a, bx.byteAt a = if a < s.rxCap then 0 else s.bufByte .rx i a) ∧
      (∀ a, bt.byteAt a = if a < s.txCap then 0 else s.bufByte .tx i a)

/-- INIT's two errors, the range check first, nothing else changed (40 R91, 60 R155). -/
def Obligations.InitRefusals : Prop :=
  ∀ (s : State) (i : Nat) (cs crnl : Bool),
    (s.nInst ≤ i → exec (.init i cs crnl) s = .next { s with rspLog := s.rspLog ++ [⟨.invalidArgument, 0⟩] }) ∧
    (i < s.nInst → (s.inst i).active = true →
      exec (.init i cs crnl) s = .next { s with rspLog := s.rspLog ++ [⟨.invalidState, 0⟩] })

/-- START of an active instance (40 R92): RXIE and LINE_EN set, the stream published if `create_stream`, the two
transactions in order, OK; TXEIE, the buffers and everything else as before. -/
def Obligations.StartEnablesReception : Prop :=
  ∀ (s : State) (i : Nat), i < s.nInst → (s.inst i).active = true →
    exec (.start i) s = .next { s with
      insts := s.insts.set i { s.inst i with
        rxie := true, lineEn := true, streamPub := (s.inst i).streamPub || (s.inst i).cfgCs },
      halLog := s.halLog ++ [.rxieEnable i, .lineEnable i],
      rspLog := s.rspLog ++ [⟨.ok, 0⟩] }

/-- START, PUTC and GETC: InvalidArgument out of range, BadInstance on an inert instance, nothing else changed
(60 R152, R155; C3). -/
def Obligations.InertInstanceRefused : Prop :=
  ∀ (s : State) (i : Nat) (b : Byte) (ins : Instr), (ins = .start i ∨ ins = .putc i b ∨ ins = .getc i) →
    (s.nInst ≤ i → exec ins s = .next { s with rspLog := s.rspLog ++ [⟨.invalidArgument, 0⟩] }) ∧
    (i < s.nInst → (s.inst i).active = false →
      exec ins s = .next { s with rspLog := s.rspLog ++ [⟨.badInstance, 0⟩] })

/-- The bring-up property (70 R185, which the spec derives from 40 R91 and R92): from reset, whatever was drawn there,
INIT then START leave the interrupt enabled and the buffers empty, and START before INIT answers BadInstance and writes
nothing. -/
def Obligations.BringUpFromReset : Prop :=
  ∀ (p : Params) (d : Nat → ResetDraw) (i : Nat) (cs crnl : Bool), p.ok = true → DrawOk p d → i < p.nInst →
    (∃ t, execAll [.init i cs crnl, .start i] (State.resetWith p d) = .next t ∧
      t.rspLog = [⟨.ok, 0⟩, ⟨.ok, 0⟩] ∧
      (t.inst i).active = true ∧ (t.inst i).lineEn = true ∧ (t.inst i).rxie = true ∧ (t.inst i).txeie = false ∧
      (t.inst i).streamPub = cs ∧
      (t.inst i).rx.get = 0 ∧ (t.inst i).rx.put = 0 ∧ (t.inst i).rx.cnt = 0 ∧
      (t.inst i).tx.get = 0 ∧ (t.inst i).tx.put = 0 ∧ (t.inst i).tx.cnt = 0 ∧
      (∀ a, a < p.rxCap → t.bufByte .rx i a = 0) ∧ (∀ a, a < p.txCap → t.bufByte .tx i a = 0)) ∧
    exec (.start i) (State.resetWith p d) =
      .next { State.resetWith p d with rspLog := [⟨.badInstance, 0⟩] }

/-! ### Stream Adapter -/

/-- PUTC of a byte that is not translated, with room (43 R130): the byte at the put index, the index advanced, the count
up by one; TXEIE set, with its transaction, when the buffer was empty; OK; everything else as before. -/
def Obligations.PutcQueuesOneByte : Prop :=
  ∀ (s : State) (i : Nat) (b : Byte), Inv s → (s.inst i).active = true →
    ¬ ((s.inst i).cfgCrnl = true ∧ b = 0x0A) → (s.inst i).tx.cnt < s.txCap →
    ∃ m : Memory,
      exec (.putc i b) s = .next { s with
        insts := s.insts.set i { s.inst i with
          txeie := (s.inst i).txeie || decide ((s.inst i).tx.cnt = 0),
          tx := ⟨(s.inst i).tx.get, ((s.inst i).tx.put + 1) % s.txCap, (s.inst i).tx.cnt + 1, m⟩ },
        halLog := s.halLog ++ (if (s.inst i).tx.cnt = 0 then [.txeieEnable i] else []),
        rspLog := s.rspLog ++ [⟨.ok, 0⟩] } ∧
      ∀ a, m.byteAt a = if a = (s.inst i).tx.put then b else s.bufByte .tx i a

/-- PUTC of a line feed with translation on and room for two (43 R131, first row): carriage return, then line feed. -/
def Obligations.PutcQueuesCarriageReturnFirst : Prop :=
  ∀ (s : State) (i : Nat), Inv s → (s.inst i).active = true → (s.inst i).cfgCrnl = true →
    (s.inst i).tx.cnt + 2 ≤ s.txCap →
    ∃ m : Memory,
      exec (.putc i 0x0A) s = .next { s with
        insts := s.insts.set i { s.inst i with
          txeie := (s.inst i).txeie || decide ((s.inst i).tx.cnt = 0),
          tx := ⟨(s.inst i).tx.get, ((s.inst i).tx.put + 2) % s.txCap, (s.inst i).tx.cnt + 2, m⟩ },
        halLog := s.halLog ++ (if (s.inst i).tx.cnt = 0 then [.txeieEnable i] else []),
        rspLog := s.rspLog ++ [⟨.ok, 0⟩] } ∧
      ∀ a, m.byteAt a = if a = (s.inst i).tx.put then 0x0D
        else if a = ((s.inst i).tx.put + 1) % s.txCap then 0x0A else s.bufByte .tx i a

/-- PUTC of a line feed with translation on and one free slot (43 R131, second row): the carriage return stays queued,
CNT[4] counts once, Overrun; TXEIE and HALLOG unchanged. -/
def Obligations.PutcOrphanCarriageReturn : Prop :=
  ∀ (s : State) (i : Nat), Inv s → (s.inst i).active = true → (s.inst i).cfgCrnl = true →
    (s.inst i).tx.cnt + 1 = s.txCap →
    ∃ m : Memory,
      exec (.putc i 0x0A) s = .next { s with
        insts := s.insts.set i { s.inst i with
          tx := ⟨(s.inst i).tx.get, ((s.inst i).tx.put + 1) % s.txCap, s.txCap, m⟩ },
        cnt := { s.cnt with txOvr := satInc s.cnt.txOvr },
        rspLog := s.rspLog ++ [⟨.overrun, 0⟩] } ∧
      ∀ a, m.byteAt a = if a = (s.inst i).tx.put then 0x0D else s.bufByte .tx i a

/-- PUTC on a full buffer, whatever the byte (43 R130, R131 third row): CNT[4] counts once, Overrun, nothing else. -/
def Obligations.PutcOnFullBuffer : Prop :=
  ∀ (s : State) (i : Nat) (b : Byte), Inv s → (s.inst i).active = true → (s.inst i).tx.cnt = s.txCap →
    exec (.putc i b) s = .next { s with
      cnt := { s.cnt with txOvr := satInc s.cnt.txOvr },
      rspLog := s.rspLog ++ [⟨.overrun, 0⟩] }

/-- A line feed sent on an idle transmitter reaches the wire as 0x0D 0x0A with translation on and as 0x0A alone with it
off, whatever is received in the same events (43 R131, S6). -/
def Obligations.LineFeedOnTheWire : Prop :=
  ∀ (s : State) (i : Nat) (sr1 dr1 sr2 dr2 : Byte) (rest : List Byte),
    Inv s → (s.inst i).active = true → (s.inst i).tx.cnt = 0 → sr1.getLsbD 7 = true → sr2.getLsbD 7 = true →
    s.halIn = eventAnswers sr1 dr1 ++ eventAnswers sr2 dr2 ++ rest →
    ((s.inst i).cfgCrnl = true →
      ∃ t, execAll [.putc i 0x0A, .irq i, .irq i] s = .next t ∧
        wire i t.halLog = wire i s.halLog ++ [0x0D, 0x0A] ∧ (t.inst i).tx.cnt = 0) ∧
    ((s.inst i).cfgCrnl = false →
      ∃ t, execAll [.putc i 0x0A, .irq i] s = .next t ∧
        wire i t.halLog = wire i s.halLog ++ [0x0A] ∧ (t.inst i).tx.cnt = 0)

/-- GETC with a byte queued (43 R132): the byte at the get index, zero-extended; the index advanced, the count down by
one; the array, the counters, HALLOG and everything else as before. -/
def Obligations.GetcTakesOldestByte : Prop :=
  ∀ (s : State) (i : Nat), Inv s → (s.inst i).active = true → 0 < (s.inst i).rx.cnt →
    exec (.getc i) s = .next { s with
      insts := s.insts.set i { s.inst i with
        rx := { (s.inst i).rx with get := ((s.inst i).rx.get + 1) % s.rxCap, cnt := (s.inst i).rx.cnt - 1 } },
      rspLog := s.rspLog ++ [⟨.ok, (s.bufByte .rx i (s.inst i).rx.get).setWidth 16⟩] }

/-- GETC on an empty buffer: Overrun, nothing else; no counter (43 R132, C5). -/
def Obligations.GetcWouldBlock : Prop :=
  ∀ (s : State) (i : Nat), i < s.nInst → (s.inst i).active = true → (s.inst i).rx.cnt = 0 →
    exec (.getc i) s = .next { s with rspLog := s.rspLog ++ [⟨.overrun, 0⟩] }

/-! ### Diagnostics -/

/-- STAT in every case (44 R142): it answers, and changes nothing else. -/
def Obligations.StatAnswers : Prop :=
  ∀ (s : State) (i : Nat) (sel : StatSel), Inv s →
    ∃ r : Rsp, exec (.stat i sel) s = .next { s with rspLog := s.rspLog ++ [r] } ∧
      ((s.nInst ≤ i ∨ sel = .illegal) → r = ⟨.invalidArgument, 0⟩) ∧
      (i < s.nInst → sel ≠ .illegal → (s.inst i).active = false → r = ⟨.ok, 0⟩) ∧
      (i < s.nInst → (s.inst i).active = true →
        (sel = .flags → r.err = .ok ∧ r.val.toNat = 8 * (s.inst i).streamPub.toNat +
          4 * (s.inst i).cfgCrnl.toNat + 2 * (s.inst i).cfgCs.toNat + 1) ∧
        (sel = .rxCount → r.err = .ok ∧ r.val.toNat = (s.inst i).rx.cnt) ∧
        (sel = .txCount → r.err = .ok ∧ r.val.toNat = (s.inst i).tx.cnt))

/-- CNTRD in every case (44 R140, 10 R26): the counter of that number, or InvalidArgument; nothing else. -/
def Obligations.CntrdAnswers : Prop :=
  ∀ s : State,
    exec (.cntrd 0) s = .next { s with rspLog := s.rspLog ++ [⟨.ok, s.cnt.ore⟩] } ∧
    exec (.cntrd 1) s = .next { s with rspLog := s.rspLog ++ [⟨.ok, s.cnt.ne⟩] } ∧
    exec (.cntrd 2) s = .next { s with rspLog := s.rspLog ++ [⟨.ok, s.cnt.fe⟩] } ∧
    exec (.cntrd 3) s = .next { s with rspLog := s.rspLog ++ [⟨.ok, s.cnt.pe⟩] } ∧
    exec (.cntrd 4) s = .next { s with rspLog := s.rspLog ++ [⟨.ok, s.cnt.txOvr⟩] } ∧
    exec (.cntrd 5) s = .next { s with rspLog := s.rspLog ++ [⟨.ok, s.cnt.rxOvr⟩] } ∧
    ∀ k, 6 ≤ k → exec (.cntrd k) s = .next { s with rspLog := s.rspLog ++ [⟨.invalidArgument, 0⟩] }

/-- CNTRST zeroes all six counters, answers OK and does nothing else (44 R141). -/
def Obligations.CntrstZeroesAll : Prop :=
  ∀ s : State, exec .cntrst s = .next { s with
    cnt := ⟨0, 0, 0, 0, 0, 0⟩, rspLog := s.rspLog ++ [⟨.ok, 0⟩] }

/-! ### Ring-buffer primitives and counters -/

/-- `try_push` with room (41 R100): true; the byte stored at the put index, appended to the queued bytes; the get index,
the rest of the array and everything outside that ring as before. -/
def Obligations.PushAppends : Prop :=
  ∀ (s : State) (d : Dir) (i : Nat) (b : Byte), Inv s → (s.inst i).active = true →
    ((s.inst i).ring d).cnt < s.cap d →
    ∃ m : Memory,
      tryPush d i b s = .ok (true, { s with insts := s.insts.set i ((s.inst i).setRing d
        ⟨((s.inst i).ring d).get, (((s.inst i).ring d).put + 1) % s.cap d, ((s.inst i).ring d).cnt + 1, m⟩) }) ∧
      (∀ a, m.byteAt a = if a = ((s.inst i).ring d).put then b else s.bufByte d i a) ∧
      Ring.contents (s.cap d)
        ⟨((s.inst i).ring d).get, (((s.inst i).ring d).put + 1) % s.cap d, ((s.inst i).ring d).cnt + 1, m⟩ =
        queued d i s ++ [b]

/-- `try_push` on a full buffer (41 R100): false; exactly one counter, CNT[5] for RX and CNT[4] for TX, counts once;
nothing else changes. -/
def Obligations.PushOnFullCountsOnce : Prop :=
  ∀ (s : State) (i : Nat) (b : Byte),
    ((s.inst i).rx.cnt = s.rxCap →
      tryPush .rx i b s = .ok (false, { s with cnt := { s.cnt with rxOvr := satInc s.cnt.rxOvr } })) ∧
    ((s.inst i).tx.cnt = s.txCap →
      tryPush .tx i b s = .ok (false, { s with cnt := { s.cnt with txOvr := satInc s.cnt.txOvr } }))

/-- `try_pop` (41 R101): nothing from an empty buffer; else the byte at the get index, the get index advanced, the count
down by one, the array, the put index and all other state as before; that byte is the oldest queued one and the
others stay queued in order (10 R23, which the spec derives from 40 R91, 41 R100 and R101). -/
def Obligations.PopTakesOldest : Prop :=
  ∀ (s : State) (d : Dir) (i : Nat), Inv s → (s.inst i).active = true →
    (((s.inst i).ring d).cnt = 0 → tryPop d i s = .ok (none, s)) ∧
    (0 < ((s.inst i).ring d).cnt →
      tryPop d i s = .ok (some (s.bufByte d i ((s.inst i).ring d).get),
        { s with insts := s.insts.set i ((s.inst i).setRing d
          { (s.inst i).ring d with
            get := (((s.inst i).ring d).get + 1) % s.cap d, cnt := ((s.inst i).ring d).cnt - 1 }) }) ∧
      queued d i s = s.bufByte d i ((s.inst i).ring d).get ::
        Ring.contents (s.cap d) { (s.inst i).ring d with
          get := (((s.inst i).ring d).get + 1) % s.cap d, cnt := ((s.inst i).ring d).cnt - 1 })

/-- The ring buffer implements a first-in first-out queue of at most CAP bytes: any run of primitives gives the answers
of the plain list and leaves its bytes queued, and keeps the ranges and the link of 10 R23. -/
def Obligations.RingImplementsQueue : Prop :=
  ∀ (d : Dir) (cap : Nat) (ops : List RingOp) (r : Ring), RingInv cap r → RingLinked cap r →
    ∃ as r', ringRun d cap ops r = .ok (as, r') ∧
      as = (queueRun cap ops (r.contents cap)).1 ∧ r'.contents cap = (queueRun cap ops (r.contents cap)).2 ∧
      RingInv cap r' ∧ RingLinked cap r'

/-- The FIFO property (41 R104, its general form derived by the spec from R100, R101 and 10 R23): from an empty buffer,
after any interleaving of pushes and pops, the bytes popped are in order a prefix of the bytes successfully pushed, and
the rest are the queued bytes. -/
def Obligations.FifoOrder : Prop :=
  ∀ (d : Dir) (cap : Nat) (ops : List RingOp) (r r' : Ring) (as : List RingAnswer),
    RingInv cap r → RingLinked cap r → r.cnt = 0 → ringRun d cap ops r = .ok (as, r') →
      storedBytes ops as = takenBytes as ++ r'.contents cap

/-- `sat_inc16(k)` (41 R102): one more unless the counter is 0xFFFF; every other counter and all other state as before;
and a counter that an operation raises is raised by exactly one. -/
def Obligations.SaturatingIncrement : Prop :=
  ∀ (k : CounterId) (s : State),
    (s.cnt.get k ≠ 0xFFFF → (satInc16 k s).cnt.get k = s.cnt.get k + 1) ∧
    (s.cnt.get k = 0xFFFF → (satInc16 k s).cnt.get k = 0xFFFF) ∧
    (∀ l, l ≠ k → (satInc16 k s).cnt.get l = s.cnt.get l) ∧
    satInc16 k s = { s with cnt := (satInc16 k s).cnt } ∧
    ∀ (ins : Instr) (t : State), exec ins s = .next t → (s.cnt.get k).toNat < (t.cnt.get k).toNat →
      (t.cnt.get k).toNat = (s.cnt.get k).toNat + 1

/-! ### The interrupt handler

`s.nextAnswer` is the event's `sr`, `s.takeAnswer.nextAnswer` its `dr`: the listed answer, or a free value (log 3). -/

/-- An event for an instance the registry does not have has no effect (42 R120). -/
def Obligations.IrqOutOfRangeNoEffect : Prop :=
  ∀ (s : State) (i : Nat), s.nInst ≤ i → exec (.irq i) s = .next s

/-- An event on an inert instance clears LINE_EN, issues `line_disable` alone and does nothing else (42 R111). -/
def Obligations.IrqInactiveGuard : Prop :=
  ∀ (s : State) (i : Nat), i < s.nInst → (s.inst i).active = false →
    exec (.irq i) s = .next { s with
      insts := s.insts.set i { s.inst i with lineEn := false },
      halLog := s.halLog ++ [.lineDisable i] }

/-- The counters after an event on an active instance (42 R114, R115): each set error bit counts once when RXNE is set,
CNT[5] once when the receive buffer was full, CNT[4] never. -/
def Obligations.IrqCountsErrors : Prop :=
  ∀ (s : State) (i : Nat), Inv s → (s.inst i).active = true →
    ∃ t, exec (.irq i) s = .next t ∧ t.cnt =
      { ore := if s.nextAnswer.getLsbD 5 && s.nextAnswer.getLsbD 3 then satInc s.cnt.ore else s.cnt.ore,
        ne := if s.nextAnswer.getLsbD 5 && s.nextAnswer.getLsbD 2 then satInc s.cnt.ne else s.cnt.ne,
        fe := if s.nextAnswer.getLsbD 5 && s.nextAnswer.getLsbD 1 then satInc s.cnt.fe else s.cnt.fe,
        pe := if s.nextAnswer.getLsbD 5 && s.nextAnswer.getLsbD 0 then satInc s.cnt.pe else s.cnt.pe,
        txOvr := s.cnt.txOvr,
        rxOvr := if s.nextAnswer.getLsbD 5 && decide ((s.inst i).rx.cnt = s.rxCap) then satInc s.cnt.rxOvr
          else s.cnt.rxOvr }

/-- Error bits without RXNE (42 R119): nothing counted, no data read, whatever the bits hold. -/
def Obligations.ErrorBitsWithoutDataIgnored : Prop :=
  ∀ (s : State) (i : Nat), Inv s → (s.inst i).active = true → s.nextAnswer.getLsbD 5 = false →
    ∃ t, exec (.irq i) s = .next t ∧ t.cnt = s.cnt ∧ dataReads i t.halLog = dataReads i s.halLog ∧
      (t.inst i).rx = (s.inst i).rx

/-- Reception (42 R113, R115): with RXNE the data register is read once and the byte is pushed whatever the error bits
say, or dropped when the buffer is full; without RXNE the receive buffer is untouched. -/
def Obligations.IrqReceives : Prop :=
  ∀ (s : State) (i : Nat), Inv s → (s.inst i).active = true →
    ∃ t, exec (.irq i) s = .next t ∧
      dataReads i t.halLog =
        dataReads i s.halLog ++ (if s.nextAnswer.getLsbD 5 then [s.takeAnswer.nextAnswer] else []) ∧
      (s.nextAnswer.getLsbD 5 = false → (t.inst i).rx = (s.inst i).rx) ∧
      (s.nextAnswer.getLsbD 5 = true → (s.inst i).rx.cnt = s.rxCap → (t.inst i).rx = (s.inst i).rx) ∧
      (s.nextAnswer.getLsbD 5 = true → (s.inst i).rx.cnt < s.rxCap →
        (t.inst i).rx.get = (s.inst i).rx.get ∧
        (t.inst i).rx.put = ((s.inst i).rx.put + 1) % s.rxCap ∧
        (t.inst i).rx.cnt = (s.inst i).rx.cnt + 1 ∧
        ∀ a, t.bufByte .rx i a =
          if a = (s.inst i).rx.put then s.takeAnswer.nextAnswer else s.bufByte .rx i a)

/-- Transmission (42 R116, R117): with TXE one byte, the oldest, goes to the wire, or TXEIE is cleared when there is
none; without TXE nothing is sent. -/
def Obligations.IrqTransmits : Prop :=
  ∀ (s : State) (i : Nat), Inv s → (s.inst i).active = true →
    ∃ t, exec (.irq i) s = .next t ∧
      (s.nextAnswer.getLsbD 7 = false →
        (t.inst i).tx = (s.inst i).tx ∧ (t.inst i).txeie = (s.inst i).txeie ∧
        wire i t.halLog = wire i s.halLog) ∧
      (s.nextAnswer.getLsbD 7 = true → (s.inst i).tx.cnt = 0 →
        (t.inst i).tx = (s.inst i).tx ∧ (t.inst i).txeie = false ∧ wire i t.halLog = wire i s.halLog) ∧
      (s.nextAnswer.getLsbD 7 = true → 0 < (s.inst i).tx.cnt →
        (t.inst i).tx = { (s.inst i).tx with
          get := ((s.inst i).tx.get + 1) % s.txCap, cnt := (s.inst i).tx.cnt - 1 } ∧
        (t.inst i).txeie = (s.inst i).txeie ∧
        wire i t.halLog = wire i s.halLog ++ [s.bufByte .tx i (s.inst i).tx.get])

/-- The HAL transactions of one event, every row of 42 R122's table, which the spec derives from R110. -/
def Obligations.IrqHalTransactions : Prop :=
  ∀ (s : State) (i : Nat), Inv s →
    ∃ t, exec (.irq i) s = .next t ∧
      (s.nInst ≤ i → t.halLog = s.halLog) ∧
      (i < s.nInst → (s.inst i).active = false → t.halLog = s.halLog ++ [.lineDisable i]) ∧
      (i < s.nInst → (s.inst i).active = true →
        t.halLog = s.halLog ++ [.statusRead i s.nextAnswer] ++
          (if s.nextAnswer.getLsbD 5 then [.dataRead i s.takeAnswer.nextAnswer] else []) ++
          (if s.nextAnswer.getLsbD 7 then
            (if 0 < (s.inst i).tx.cnt then [.dataWrite i (s.bufByte .tx i (s.inst i).tx.get)] else [.txeieDisable i])
          else []))

/-- What an event on an active instance leaves unchanged (42 R110): ACTIVE, the configuration, STREAM_PUB, LINE_EN,
RXIE, RX_GET, TX_PUT, every byte of TX_BUF, every other instance, the parameters, the responses and the words still
presented; and it takes as many answers as it makes HAL reads. -/
def Obligations.IrqFrame : Prop :=
  ∀ (s : State) (i : Nat), Inv s → (s.inst i).active = true →
    ∃ t, exec (.irq i) s = .next t ∧
      (t.inst i).active = (s.inst i).active ∧ (t.inst i).cfgCs = (s.inst i).cfgCs ∧
      (t.inst i).cfgCrnl = (s.inst i).cfgCrnl ∧ (t.inst i).streamPub = (s.inst i).streamPub ∧
      (t.inst i).lineEn = (s.inst i).lineEn ∧ (t.inst i).rxie = (s.inst i).rxie ∧
      (t.inst i).rx.get = (s.inst i).rx.get ∧ (t.inst i).tx.put = (s.inst i).tx.put ∧
      (∀ a, t.bufByte .tx i a = s.bufByte .tx i a) ∧
      (∀ j, j ≠ i → t.inst j = s.inst j) ∧
      t.params = s.params ∧ t.rspLog = s.rspLog ∧ t.inputs = s.inputs ∧
      (s.nextAnswer.getLsbD 5 = false → t.halIn = s.takeAnswer.halIn ∧ t.draws = s.takeAnswer.draws) ∧
      (s.nextAnswer.getLsbD 5 = true →
        t.halIn = s.takeAnswer.takeAnswer.halIn ∧ t.draws = s.takeAnswer.takeAnswer.draws)

/-- Two pending events of different active instances, taken in either order, leave the same registry and counters
(60 R159). -/
def Obligations.EventsOfTwoInstancesCommute : Prop :=
  ∀ (s : State) (i j : Nat) (sri dri srj drj : Byte) (rest : List Byte),
    Inv s → i ≠ j → (s.inst i).active = true → (s.inst j).active = true →
    ∃ t u, execAll [.irq i, .irq j] { s with halIn := eventAnswers sri dri ++ eventAnswers srj drj ++ rest } = .next t ∧
      execAll [.irq j, .irq i] { s with halIn := eventAnswers srj drj ++ eventAnswers sri dri ++ rest } = .next u ∧
      t.insts = u.insts ∧ t.cnt = u.cnt ∧ t.halIn = u.halIn ∧ t.rspLog = u.rspLog

/-! ### The whole machine -/

/-- Reset (70 R181), for every configuration and every draw of the unspecified values: ACTIVE, STREAM_PUB and the six
counters are 0, and the rest of each entry is as drawn. -/
def Obligations.ResetValues : Prop :=
  ∀ (p : Params) (d : Nat → ResetDraw),
    (State.resetWith p d).params = p ∧ (State.resetWith p d).cnt = ⟨0, 0, 0, 0, 0, 0⟩ ∧
    ∀ i, i < p.nInst → (State.resetWith p d).inst i =
      { active := false, cfgCs := (d i).cfgCs, cfgCrnl := (d i).cfgCrnl, streamPub := false,
        lineEn := (d i).lineEn, rxie := (d i).rxie, txeie := (d i).txeie, rx := (d i).rx, tx := (d i).tx }

/-- The invariant holds at reset, of `State.reset` and of every configuration and draw. -/
def Obligations.ResetInv : Prop :=
  Inv State.reset ∧
    ∀ (p : Params) (d : Nat → ResetDraw), p.ok = true → DrawOk p d → Inv (State.resetWith p d)

/-- Every step keeps the invariant: parameters in bounds, indices and counts in range, arrays canonical, the link of 10
R23 and the enable of 10 R29 on every active instance (both derived by the spec), RXIE with LINE_EN, the stream
published exactly when started with `create_stream` (the model's own inference from 40 R91 to R93); arrays canonical is
the model's form (log 7). -/
def Obligations.StepKeepsInv : Prop :=
  ∀ s t : State, Inv s → step s = .next t → Inv t

/-- Nothing traps or hangs (00 R6(5), 20 R42): in every state that meets the invariant every operation completes, and so
does every step. -/
def Obligations.NothingStops : Prop :=
  ∀ s : State, Inv s → (∀ i : Instr, ∃ t, exec i s = .next t) ∧ ∃ t, step s = .next t

/-- The parameters never change (00 R5, R6(2)). -/
def Obligations.ParametersFixed : Prop :=
  ∀ s t : State, step s = .next t → t.params = s.params

/-- An operation leaves every instance it does not name as it was (60 R165, 40 R91). -/
def Obligations.OtherInstancesUntouched : Prop :=
  ∀ (ins : Instr) (s t : State) (j : Nat), exec ins s = .next t → ins.instOf ≠ some j → t.inst j = s.inst j

/-- ACTIVE (10 R15): set by a successful INIT and by nothing else, cleared by nothing. -/
def Obligations.ActiveOnlyByInit : Prop :=
  ∀ (ins : Instr) (s t : State) (j : Nat), exec ins s = .next t →
    ((s.inst j).active = true → (t.inst j).active = true) ∧
    ((s.inst j).active = false → (t.inst j).active = true →
      (∃ cs crnl, ins = .init j cs crnl) ∧ t.rspLog = s.rspLog ++ [⟨.ok, 0⟩])

/-- The life cycle of an instance (40 R93, which the spec derives from R91, R92 and 42 R111): INIT takes it from inert
to initialized, START from there to started, and there is no other change. -/
def Obligations.LifeCycleOneWay : Prop :=
  ∀ (ins : Instr) (s t : State) (j : Nat), Inv s → exec ins s = .next t →
    (t.inst j).lifeCycle = (s.inst j).lifeCycle ∨
    ((s.inst j).lifeCycle = .inert ∧ (t.inst j).lifeCycle = .initialized ∧ ∃ cs crnl, ins = .init j cs crnl) ∨
    ((s.inst j).lifeCycle = .initialized ∧ (t.inst j).lifeCycle = .started ∧ ins = .start j)

/-- No counter falls but by CNTRST, and none rises by more than one in a step (41 R103(c), S8). -/
def Obligations.CountersNeverFall : Prop :=
  ∀ (ins : Instr) (s t : State) (k : CounterId), exec ins s = .next t → ins ≠ .cntrst →
    (s.cnt.get k).toNat ≤ (t.cnt.get k).toNat ∧ (t.cnt.get k).toNat ≤ (s.cnt.get k).toNat + 1

/-- Which context counts what (60 R163): CNT[4] changes only by PUTC, the other five only by IRQ, CNTRST aside. -/
def Obligations.CounterOwners : Prop :=
  ∀ (ins : Instr) (s t : State) (k : CounterId), exec ins s = .next t → ins ≠ .cntrst →
    t.cnt.get k ≠ s.cnt.get k →
    (k = .txOvr ∧ ∃ i b, ins = .putc i b) ∨ (k ≠ .txOvr ∧ ∃ i, ins = .irq i)

/-- The single-writer discipline (10 R24): RX_PUT and RX_BUF change only by IRQ, RX_GET only by GETC, TX_PUT and TX_BUF
only by PUTC, TX_GET only by IRQ, of that instance; INIT aside. -/
def Obligations.SingleWriter : Prop :=
  ∀ (ins : Instr) (s t : State) (i : Nat), exec ins s = .next t → (∀ cs crnl, ins ≠ .init i cs crnl) →
    ((t.inst i).rx.put ≠ (s.inst i).rx.put → ins = .irq i) ∧
    (∀ a, t.bufByte .rx i a ≠ s.bufByte .rx i a → ins = .irq i) ∧
    ((t.inst i).rx.get ≠ (s.inst i).rx.get → ins = .getc i) ∧
    ((t.inst i).tx.put ≠ (s.inst i).tx.put → ∃ b, ins = .putc i b) ∧
    (∀ a, t.bufByte .tx i a ≠ s.bufByte .tx i a → ∃ b, ins = .putc i b) ∧
    ((t.inst i).tx.get ≠ (s.inst i).tx.get → ins = .irq i)

/-- Who issues which HAL transaction (20 R44's last column): every transaction of a step is for the instance of an
operation listed there, and HALLOG only grows. -/
def Obligations.HalTransactionIssuers : Prop :=
  ∀ (ins : Instr) (s t : State), exec ins s = .next t →
    ∃ new, t.halLog = s.halLog ++ new ∧ ∀ x, x ∈ new →
      (∀ i sr, x = .statusRead i sr → ins = .irq i) ∧
      (∀ i b, x = .dataRead i b → ins = .irq i) ∧
      (∀ i b, x = .dataWrite i b → ins = .irq i) ∧
      (∀ i, x = .lineEnable i → ins = .start i) ∧
      (∀ i, x = .lineDisable i → ins = .irq i ∨ ∃ cs crnl, ins = .init i cs crnl) ∧
      (∀ i, x = .rxieEnable i → ins = .start i) ∧
      (∀ i, x = .rxieDisable i → ∃ cs crnl, ins = .init i cs crnl) ∧
      (∀ i, x = .txeieEnable i → ∃ b, ins = .putc i b) ∧
      (∀ i, x = .txeieDisable i → ins = .irq i ∨ ∃ cs crnl, ins = .init i cs crnl)

/-- Every command answers exactly one response, with `val` = 0 on an error, and IRQ answers none (30 R60, R64). -/
def Obligations.OneResponsePerCommand : Prop :=
  ∀ (ins : Instr) (s t : State), exec ins s = .next t →
    ((∃ i, ins = .irq i) → t.rspLog = s.rspLog) ∧
    ((∀ i, ins ≠ .irq i) → ∃ r : Rsp, t.rspLog = s.rspLog ++ [r] ∧ (r.err ≠ .ok → r.val = 0))

/-- Which command raises which error, and exactly when (60 R152's table). -/
def Obligations.ErrorsExactlyWhen : Prop :=
  ∀ (ins : Instr) (s t : State) (r : Rsp), Inv s → exec ins s = .next t → t.rspLog = s.rspLog ++ [r] →
    (r.err = .invalidArgument ↔
      (∃ i cs crnl, ins = .init i cs crnl ∧ s.nInst ≤ i) ∨ (∃ i, ins = .start i ∧ s.nInst ≤ i) ∨
      (∃ i b, ins = .putc i b ∧ s.nInst ≤ i) ∨ (∃ i, ins = .getc i ∧ s.nInst ≤ i) ∨
      (∃ i sel, ins = .stat i sel ∧ (s.nInst ≤ i ∨ sel = .illegal)) ∨ (∃ k, ins = .cntrd k ∧ 6 ≤ k)) ∧
    (r.err = .invalidState ↔ ∃ i cs crnl, ins = .init i cs crnl ∧ i < s.nInst ∧ (s.inst i).active = true) ∧
    (r.err = .badInstance ↔
      ∃ i, i < s.nInst ∧ (s.inst i).active = false ∧ (ins = .start i ∨ ins = .getc i ∨ ∃ b, ins = .putc i b)) ∧
    (r.err = .overrun ↔
      (∃ i, ins = .getc i ∧ (s.inst i).active = true ∧ (s.inst i).rx.cnt = 0) ∨
      (∃ i b, ins = .putc i b ∧ (s.inst i).active = true ∧
        s.txCap < (s.inst i).tx.cnt + (putcBytes (s.inst i).cfgCrnl b).length))

/-- What an erroring command leaves behind (60 R154, which the spec derives from the operations' pseudocode): every
command but PUTC the state before it; PUTC's Overrun has counted CNT[4] once, may have queued a carriage return, and
has not written TXEIE. -/
def Obligations.ErrorsLeaveState : Prop :=
  ∀ (ins : Instr) (s t : State) (r : Rsp), Inv s → exec ins s = .next t → t.rspLog = s.rspLog ++ [r] → r.err ≠ .ok →
    (r.err ≠ .overrun ∨ (∀ i b, ins ≠ .putc i b) → t = { s with rspLog := s.rspLog ++ [r] }) ∧
    ∀ i b, ins = .putc i b → r.err = .overrun →
      t.cnt = { s.cnt with txOvr := satInc s.cnt.txOvr } ∧
      (t.inst i).txeie = (s.inst i).txeie ∧ t.halLog = s.halLog ∧
      (t.insts = s.insts ∨ (b = 0x0A ∧ (s.inst i).cfgCrnl = true ∧ queued .tx i t = queued .tx i s ++ [0x0D]))

/-- In every state a run from reset reaches, bytes queued on an active instance keep TXEIE set; the converse fails
(10 R29, which the spec derives from 40 R91, 43 R130 and 42 R117). It speaks of runs from reset; the step's own part is
`Obligations.StepKeepsInv` through `InstInv.txEnabled`. -/
def Obligations.QueuedBytesKeepTxeie : Prop :=
  (∀ (p : Params) (d : Nat → ResetDraw) (ws : List PortWord) (answers : List Byte) (k : Nat) (t : State) (i : Nat),
    p.ok = true → DrawOk p d →
    Host.Core.run Sys2Proof.core k { State.resetWith p d with inputs := ws, halIn := answers } = .next t →
    (t.inst i).active = true → 0 < (t.inst i).tx.cnt → (t.inst i).txeie = true) ∧
  ∃ (p : Params) (d : Nat → ResetDraw) (ws : List PortWord) (answers : List Byte) (k : Nat) (t : State) (i : Nat),
    p.ok = true ∧ DrawOk p d ∧
    Host.Core.run Sys2Proof.core k { State.resetWith p d with inputs := ws, halIn := answers } = .next t ∧
    (t.inst i).active = true ∧ (t.inst i).tx.cnt = 0 ∧ (t.inst i).txeie = true

/-- Transmission is first in, first out along every run (20 R52, which the spec derives from 41 R104): the bytes queued
before, then those PUTC pushed, are the bytes that went to the wire, then those still queued. -/
def Obligations.TransmitFifo : Prop :=
  ∀ (i : Nat) (ops : List Instr) (s t : State), Inv s → execAll ops s = .next t →
    ∃ w, wire i t.halLog = wire i s.halLog ++ w ∧
      queued .tx i s ++ txIn i ops s = w ++ queued .tx i t

/-- Reception is first in, first out along every run (20 R52, which the spec derives from 41 R104): the bytes queued
before, then those read and stored, are the bytes GETC returned, then those still queued. -/
def Obligations.ReceiveFifo : Prop :=
  ∀ (i : Nat) (ops : List Instr) (s t : State), Inv s → execAll ops s = .next t →
    queued .rx i s ++ rxIn i ops s = rxOut i ops s ++ queued .rx i t

/-- The values drawn at reset are never seen (70 R181, 44 R142): runs from two resets that differ only in them, on the
same words and answers, give the same responses, transactions and counters, and the same active entries. Once the listed
answers end both runs draw the same free values of `Config.halAnswer`: that is the model's choice (log 17). -/
def Obligations.ResetDrawsUnseen : Prop :=
  ∀ (p : Params) (d e : Nat → ResetDraw) (ws : List PortWord) (answers : List Byte) (k : Nat) (t : State),
    p.ok = true → DrawOk p d → DrawOk p e →
    Host.Core.run Sys2Proof.core k { State.resetWith p d with inputs := ws, halIn := answers } = .next t →
    ∃ u, Host.Core.run Sys2Proof.core k { State.resetWith p e with inputs := ws, halIn := answers } = .next u ∧
      SameSeen t u
end

