-- ==== Sys2Proof/Laws/State.lean ====
section
/-! SUPPORT. What each update of the state leaves in each field, one lemma a field. -/

namespace Sys2Proof.Machine

@[simp] theorem setInst_rxCap (i : Nat) (c : Inst) (s : State) : (s.setInst i c).rxCap = s.rxCap := rfl
@[simp] theorem setInst_txCap (i : Nat) (c : Inst) (s : State) : (s.setInst i c).txCap = s.txCap := rfl
@[simp] theorem setInst_defaultStream (i : Nat) (c : Inst) (s : State) : (s.setInst i c).defaultStream = s.defaultStream := rfl
@[simp] theorem setInst_insts (i : Nat) (c : Inst) (s : State) : (s.setInst i c).insts = s.insts.set i c := rfl
@[simp] theorem setInst_cnt (i : Nat) (c : Inst) (s : State) : (s.setInst i c).cnt = s.cnt := rfl
@[simp] theorem setInst_inputs (i : Nat) (c : Inst) (s : State) : (s.setInst i c).inputs = s.inputs := rfl
@[simp] theorem setInst_halIn (i : Nat) (c : Inst) (s : State) : (s.setInst i c).halIn = s.halIn := rfl
@[simp] theorem setInst_draws (i : Nat) (c : Inst) (s : State) : (s.setInst i c).draws = s.draws := rfl
@[simp] theorem setInst_halLog (i : Nat) (c : Inst) (s : State) : (s.setInst i c).halLog = s.halLog := rfl
@[simp] theorem setInst_rspLog (i : Nat) (c : Inst) (s : State) : (s.setInst i c).rspLog = s.rspLog := rfl

@[simp] theorem satInc16_rxCap (k : CounterId) (s : State) : (satInc16 k s).rxCap = s.rxCap := rfl
@[simp] theorem satInc16_txCap (k : CounterId) (s : State) : (satInc16 k s).txCap = s.txCap := rfl
@[simp] theorem satInc16_defaultStream (k : CounterId) (s : State) : (satInc16 k s).defaultStream = s.defaultStream := rfl
@[simp] theorem satInc16_insts (k : CounterId) (s : State) : (satInc16 k s).insts = s.insts := rfl
@[simp] theorem satInc16_cnt (k : CounterId) (s : State) : (satInc16 k s).cnt = s.cnt.bump k := rfl
@[simp] theorem satInc16_inputs (k : CounterId) (s : State) : (satInc16 k s).inputs = s.inputs := rfl
@[simp] theorem satInc16_halIn (k : CounterId) (s : State) : (satInc16 k s).halIn = s.halIn := rfl
@[simp] theorem satInc16_draws (k : CounterId) (s : State) : (satInc16 k s).draws = s.draws := rfl
@[simp] theorem satInc16_halLog (k : CounterId) (s : State) : (satInc16 k s).halLog = s.halLog := rfl
@[simp] theorem satInc16_rspLog (k : CounterId) (s : State) : (satInc16 k s).rspLog = s.rspLog := rfl

@[simp] theorem logHal_rxCap (t : HalTx) (s : State) : (logHal t s).rxCap = s.rxCap := rfl
@[simp] theorem logHal_txCap (t : HalTx) (s : State) : (logHal t s).txCap = s.txCap := rfl
@[simp] theorem logHal_defaultStream (t : HalTx) (s : State) : (logHal t s).defaultStream = s.defaultStream := rfl
@[simp] theorem logHal_insts (t : HalTx) (s : State) : (logHal t s).insts = s.insts := rfl
@[simp] theorem logHal_cnt (t : HalTx) (s : State) : (logHal t s).cnt = s.cnt := rfl
@[simp] theorem logHal_inputs (t : HalTx) (s : State) : (logHal t s).inputs = s.inputs := rfl
@[simp] theorem logHal_halIn (t : HalTx) (s : State) : (logHal t s).halIn = s.halIn := rfl
@[simp] theorem logHal_draws (t : HalTx) (s : State) : (logHal t s).draws = s.draws := rfl
@[simp] theorem logHal_halLog (t : HalTx) (s : State) : (logHal t s).halLog = s.halLog ++ [t] := rfl
@[simp] theorem logHal_rspLog (t : HalTx) (s : State) : (logHal t s).rspLog = s.rspLog := rfl

@[simp] theorem respond_rxCap (r : Rsp) (s : State) : (respond r s).rxCap = s.rxCap := rfl
@[simp] theorem respond_txCap (r : Rsp) (s : State) : (respond r s).txCap = s.txCap := rfl
@[simp] theorem respond_defaultStream (r : Rsp) (s : State) : (respond r s).defaultStream = s.defaultStream := rfl
@[simp] theorem respond_insts (r : Rsp) (s : State) : (respond r s).insts = s.insts := rfl
@[simp] theorem respond_cnt (r : Rsp) (s : State) : (respond r s).cnt = s.cnt := rfl
@[simp] theorem respond_inputs (r : Rsp) (s : State) : (respond r s).inputs = s.inputs := rfl
@[simp] theorem respond_halIn (r : Rsp) (s : State) : (respond r s).halIn = s.halIn := rfl
@[simp] theorem respond_draws (r : Rsp) (s : State) : (respond r s).draws = s.draws := rfl
@[simp] theorem respond_halLog (r : Rsp) (s : State) : (respond r s).halLog = s.halLog := rfl
@[simp] theorem respond_rspLog (r : Rsp) (s : State) : (respond r s).rspLog = s.rspLog ++ [r] := rfl

@[simp] theorem presentFirst_rxCap (w : PortWord) (s : State) : (presentFirst w s).rxCap = s.rxCap := rfl
@[simp] theorem presentFirst_txCap (w : PortWord) (s : State) : (presentFirst w s).txCap = s.txCap := rfl
@[simp] theorem presentFirst_defaultStream (w : PortWord) (s : State) : (presentFirst w s).defaultStream = s.defaultStream := rfl
@[simp] theorem presentFirst_insts (w : PortWord) (s : State) : (presentFirst w s).insts = s.insts := rfl
@[simp] theorem presentFirst_cnt (w : PortWord) (s : State) : (presentFirst w s).cnt = s.cnt := rfl
@[simp] theorem presentFirst_inputs (w : PortWord) (s : State) : (presentFirst w s).inputs = w :: s.inputs := rfl
@[simp] theorem presentFirst_halIn (w : PortWord) (s : State) : (presentFirst w s).halIn = s.halIn := rfl
@[simp] theorem presentFirst_draws (w : PortWord) (s : State) : (presentFirst w s).draws = s.draws := rfl
@[simp] theorem presentFirst_halLog (w : PortWord) (s : State) : (presentFirst w s).halLog = s.halLog := rfl
@[simp] theorem presentFirst_rspLog (w : PortWord) (s : State) : (presentFirst w s).rspLog = s.rspLog := rfl

@[simp] theorem takeAnswer_rxCap (s : State) : s.takeAnswer.rxCap = s.rxCap := by
  unfold State.takeAnswer; split <;> rfl
@[simp] theorem takeAnswer_txCap (s : State) : s.takeAnswer.txCap = s.txCap := by
  unfold State.takeAnswer; split <;> rfl
@[simp] theorem takeAnswer_defaultStream (s : State) : s.takeAnswer.defaultStream = s.defaultStream := by
  unfold State.takeAnswer; split <;> rfl
@[simp] theorem takeAnswer_insts (s : State) : s.takeAnswer.insts = s.insts := by
  unfold State.takeAnswer; split <;> rfl
@[simp] theorem takeAnswer_cnt (s : State) : s.takeAnswer.cnt = s.cnt := by
  unfold State.takeAnswer; split <;> rfl
@[simp] theorem takeAnswer_inputs (s : State) : s.takeAnswer.inputs = s.inputs := by
  unfold State.takeAnswer; split <;> rfl
@[simp] theorem takeAnswer_halLog (s : State) : s.takeAnswer.halLog = s.halLog := by
  unfold State.takeAnswer; split <;> rfl
@[simp] theorem takeAnswer_rspLog (s : State) : s.takeAnswer.rspLog = s.rspLog := by
  unfold State.takeAnswer; split <;> rfl

@[simp] theorem countIf_rxCap (c : Bool) (k : CounterId) (s : State) : (countIf c k s).rxCap = s.rxCap := by
  cases c <;> rfl
@[simp] theorem countIf_txCap (c : Bool) (k : CounterId) (s : State) : (countIf c k s).txCap = s.txCap := by
  cases c <;> rfl
@[simp] theorem countIf_defaultStream (c : Bool) (k : CounterId) (s : State) : (countIf c k s).defaultStream = s.defaultStream := by
  cases c <;> rfl
@[simp] theorem countIf_insts (c : Bool) (k : CounterId) (s : State) : (countIf c k s).insts = s.insts := by
  cases c <;> rfl
@[simp] theorem countIf_inputs (c : Bool) (k : CounterId) (s : State) : (countIf c k s).inputs = s.inputs := by
  cases c <;> rfl
@[simp] theorem countIf_halIn (c : Bool) (k : CounterId) (s : State) : (countIf c k s).halIn = s.halIn := by
  cases c <;> rfl
@[simp] theorem countIf_draws (c : Bool) (k : CounterId) (s : State) : (countIf c k s).draws = s.draws := by
  cases c <;> rfl
@[simp] theorem countIf_halLog (c : Bool) (k : CounterId) (s : State) : (countIf c k s).halLog = s.halLog := by
  cases c <;> rfl
@[simp] theorem countIf_rspLog (c : Bool) (k : CounterId) (s : State) : (countIf c k s).rspLog = s.rspLog := by
  cases c <;> rfl
@[simp] theorem countIf_cnt (c : Bool) (k : CounterId) (s : State) :
    (countIf c k s).cnt = if c then s.cnt.bump k else s.cnt := by
  cases c <;> rfl

@[simp] theorem classify_rxCap (sr : Byte) (s : State) : (classify sr s).rxCap = s.rxCap := by
  simp [classify]
@[simp] theorem classify_txCap (sr : Byte) (s : State) : (classify sr s).txCap = s.txCap := by
  simp [classify]
@[simp] theorem classify_defaultStream (sr : Byte) (s : State) : (classify sr s).defaultStream = s.defaultStream := by
  simp [classify]
@[simp] theorem classify_insts (sr : Byte) (s : State) : (classify sr s).insts = s.insts := by
  simp [classify]
@[simp] theorem classify_inputs (sr : Byte) (s : State) : (classify sr s).inputs = s.inputs := by
  simp [classify]
@[simp] theorem classify_halIn (sr : Byte) (s : State) : (classify sr s).halIn = s.halIn := by
  simp [classify]
@[simp] theorem classify_draws (sr : Byte) (s : State) : (classify sr s).draws = s.draws := by
  simp [classify]
@[simp] theorem classify_halLog (sr : Byte) (s : State) : (classify sr s).halLog = s.halLog := by
  simp [classify]
@[simp] theorem classify_rspLog (sr : Byte) (s : State) : (classify sr s).rspLog = s.rspLog := by
  simp [classify]

/-! ### Registry entries -/

/-- Every instance the registry has is one of its entries. -/
theorem inst_eq_getElem (s : State) (i : Nat) (h : i < s.insts.length) : s.inst i = s.insts[i] := by
  simp [State.inst, h]

theorem inst_setInst (s : State) (i j : Nat) (c : Inst) (h : i < s.nInst) :
    (s.setInst i c).inst j = if j = i then c else s.inst j := by
  unfold State.nInst at h
  by_cases e : j = i
  · subst e; simp [State.inst, State.setInst, h]
  · simp [State.inst, State.setInst, e, Ne.symm e]

@[simp] theorem inst_setInst_self (s : State) (i : Nat) (c : Inst) (h : i < s.nInst) :
    (s.setInst i c).inst i = c := by simp [inst_setInst s i i c h]

theorem inst_setInst_of_ne (s : State) (i j : Nat) (c : Inst) (h : j ≠ i) :
    (s.setInst i c).inst j = s.inst j := by
  simp [State.inst, State.setInst, Ne.symm h]

@[simp] theorem nInst_setInst (s : State) (i : Nat) (c : Inst) : (s.setInst i c).nInst = s.nInst := by
  simp [State.nInst]

@[simp] theorem setInst_setInst (s : State) (i : Nat) (c e : Inst) :
    (s.setInst i c).setInst i e = s.setInst i e := by simp [State.setInst]

/-- Writing an entry back changes nothing. -/
@[simp] theorem setInst_inst (s : State) (i : Nat) : s.setInst i (s.inst i) = s := by
  cases s with
  | mk a b c l =>
    simp only [State.setInst, State.inst, State.mk.injEq, true_and, and_true]
    apply List.ext_getElem?
    intro j
    by_cases h : i = j
    · subst h
      by_cases hl : i < l.length <;> simp [hl]
    · simp [h]

/-- The entries depend on the registry alone. -/
theorem inst_congr {s t : State} (h : t.insts = s.insts) (i : Nat) : t.inst i = s.inst i := by
  simp [State.inst, h]

theorem nInst_congr {s t : State} (h : t.insts = s.insts) : t.nInst = s.nInst := by
  simp [State.nInst, h]

theorem cap_congr {s t : State} (hr : t.rxCap = s.rxCap) (ht : t.txCap = s.txCap) (d : Dir) : t.cap d = s.cap d := by
  cases d <;> simp [State.cap, hr, ht]

@[simp] theorem satInc16_inst (k : CounterId) (s : State) (i : Nat) : (satInc16 k s).inst i = s.inst i := rfl
@[simp] theorem satInc16_nInst (k : CounterId) (s : State) : (satInc16 k s).nInst = s.nInst := rfl
@[simp] theorem satInc16_cap (k : CounterId) (s : State) (d : Dir) : (satInc16 k s).cap d = s.cap d := by cases d <;> rfl
@[simp] theorem logHal_inst (t : HalTx) (s : State) (i : Nat) : (logHal t s).inst i = s.inst i := rfl
@[simp] theorem logHal_nInst (t : HalTx) (s : State) : (logHal t s).nInst = s.nInst := rfl
@[simp] theorem logHal_cap (t : HalTx) (s : State) (d : Dir) : (logHal t s).cap d = s.cap d := by cases d <;> rfl
@[simp] theorem respond_inst (r : Rsp) (s : State) (i : Nat) : (respond r s).inst i = s.inst i := rfl
@[simp] theorem respond_nInst (r : Rsp) (s : State) : (respond r s).nInst = s.nInst := rfl
@[simp] theorem respond_cap (r : Rsp) (s : State) (d : Dir) : (respond r s).cap d = s.cap d := by cases d <;> rfl
@[simp] theorem presentFirst_inst (w : PortWord) (s : State) (i : Nat) : (presentFirst w s).inst i = s.inst i := rfl
@[simp] theorem presentFirst_nInst (w : PortWord) (s : State) : (presentFirst w s).nInst = s.nInst := rfl
@[simp] theorem presentFirst_cap (w : PortWord) (s : State) (d : Dir) : (presentFirst w s).cap d = s.cap d := by cases d <;> rfl
@[simp] theorem countIf_inst (c : Bool) (k : CounterId) (s : State) (i : Nat) : (countIf c k s).inst i = s.inst i := inst_congr (by simp) i
@[simp] theorem countIf_nInst (c : Bool) (k : CounterId) (s : State) : (countIf c k s).nInst = s.nInst := nInst_congr (by simp)
@[simp] theorem countIf_cap (c : Bool) (k : CounterId) (s : State) (d : Dir) : (countIf c k s).cap d = s.cap d := cap_congr (by simp) (by simp) d
@[simp] theorem classify_inst (sr : Byte) (s : State) (i : Nat) : (classify sr s).inst i = s.inst i := inst_congr (by simp) i
@[simp] theorem classify_nInst (sr : Byte) (s : State) : (classify sr s).nInst = s.nInst := nInst_congr (by simp)
@[simp] theorem classify_cap (sr : Byte) (s : State) (d : Dir) : (classify sr s).cap d = s.cap d := cap_congr (by simp) (by simp) d
@[simp] theorem takeAnswer_inst  (s : State) (i : Nat) : (s.takeAnswer).inst i = s.inst i := inst_congr (by simp) i
@[simp] theorem takeAnswer_nInst  (s : State) : (s.takeAnswer).nInst = s.nInst := nInst_congr (by simp)
@[simp] theorem takeAnswer_cap  (s : State) (d : Dir) : (s.takeAnswer).cap d = s.cap d := cap_congr (by simp) (by simp) d
@[simp] theorem setInst_cap (i : Nat) (c : Inst) (s : State) (d : Dir) : (s.setInst i c).cap d = s.cap d := by
  cases d <;> rfl

/-! ### Rings of an entry -/

@[simp] theorem ring_setRing_self (c : Inst) (d : Dir) (r : Ring) : (c.setRing d r).ring d = r := by cases d <;> rfl

theorem ring_setRing_of_ne (c : Inst) (d e : Dir) (r : Ring) (h : e ≠ d) : (c.setRing d r).ring e = c.ring e := by
  cases d <;> cases e <;> first | rfl | exact absurd rfl h

@[simp] theorem setRing_active (c : Inst) (d : Dir) (r : Ring) : (c.setRing d r).active = c.active := by cases d <;> rfl
@[simp] theorem setRing_cfgCs (c : Inst) (d : Dir) (r : Ring) : (c.setRing d r).cfgCs = c.cfgCs := by cases d <;> rfl
@[simp] theorem setRing_cfgCrnl (c : Inst) (d : Dir) (r : Ring) : (c.setRing d r).cfgCrnl = c.cfgCrnl := by cases d <;> rfl
@[simp] theorem setRing_streamPub (c : Inst) (d : Dir) (r : Ring) : (c.setRing d r).streamPub = c.streamPub := by cases d <;> rfl
@[simp] theorem setRing_lineEn (c : Inst) (d : Dir) (r : Ring) : (c.setRing d r).lineEn = c.lineEn := by cases d <;> rfl
@[simp] theorem setRing_rxie (c : Inst) (d : Dir) (r : Ring) : (c.setRing d r).rxie = c.rxie := by cases d <;> rfl
@[simp] theorem setRing_txeie (c : Inst) (d : Dir) (r : Ring) : (c.setRing d r).txeie = c.txeie := by cases d <;> rfl
@[simp] theorem setRing_rx_rx (c : Inst) (r : Ring) : (c.setRing .rx r).rx = r := rfl
@[simp] theorem setRing_rx_tx (c : Inst) (r : Ring) : (c.setRing .rx r).tx = c.tx := rfl
@[simp] theorem setRing_tx_tx (c : Inst) (r : Ring) : (c.setRing .tx r).tx = r := rfl
@[simp] theorem setRing_tx_rx (c : Inst) (r : Ring) : (c.setRing .tx r).rx = c.rx := rfl
@[simp] theorem ring_rx (c : Inst) : c.ring .rx = c.rx := rfl
@[simp] theorem ring_tx (c : Inst) : c.ring .tx = c.tx := rfl
@[simp] theorem cap_rx (s : State) : s.cap .rx = s.rxCap := rfl
@[simp] theorem cap_tx (s : State) : s.cap .tx = s.txCap := rfl

/-! ### Counters -/

@[simp] theorem bump_get_self (c : Counters) (k : CounterId) : (c.bump k).get k = satInc (c.get k) := by
  cases k <;> rfl

theorem bump_get_of_ne (c : Counters) (k l : CounterId) (h : l ≠ k) : (c.bump k).get l = c.get l := by
  cases k <;> cases l <;> first | rfl | exact absurd rfl h

/-- `sat_inc16` adds one and stops at 0xFFFF (41 R102). -/
theorem satInc_toNat (c : Half) : (satInc c).toNat = min (c.toNat + 1) 65535 := by
  unfold satInc
  split
  · next h => subst h; rfl
  · next h =>
    have h1 : c.toNat ≠ 65535 := fun e => h (BitVec.eq_of_toNat_eq (by simpa using e))
    have h2 := c.isLt
    have h3 : (1 : Half).toNat = 1 := rfl
    rw [BitVec.toNat_add, h3]
    omega

/-- The classifier's four counts, each on its own bit (42 R114). -/
theorem classify_cnt (sr : Byte) (s : State) :
    (classify sr s).cnt = { s.cnt with
      ore := if srOre sr then satInc s.cnt.ore else s.cnt.ore,
      ne := if srNe sr then satInc s.cnt.ne else s.cnt.ne,
      fe := if srFe sr then satInc s.cnt.fe else s.cnt.fe,
      pe := if srPe sr then satInc s.cnt.pe else s.cnt.pe } := by
  unfold classify
  cases srOre sr <;> cases srNe sr <;> cases srFe sr <;> cases srPe sr <;> rfl

end Sys2Proof.Machine
end

