-- ==== Sys2Proof/Laws/Memory.lean ====
section
/-! SUPPORT. The backing arrays: read after write, and the canonical form every array operation keeps. -/

namespace Sys2Proof.Machine

theorem wfFrom_mono {lo lo' : Nat} {m : Memory} (h : m.wfFrom lo = true) (hl : lo' ≤ lo) :
    m.wfFrom lo' = true := by
  cases m with
  | nil => rfl
  | cons c rest =>
    simp only [Memory.wfFrom, Bool.and_eq_true, decide_eq_true_eq] at h ⊢
    exact ⟨⟨by omega, h.1.2⟩, h.2⟩

/-- An index below every listed one holds 0x00. -/
theorem byteAt_below {m : Memory} {lo a : Nat} (h : m.wfFrom lo = true) (ha : a < lo) : m.byteAt a = 0 := by
  induction m generalizing lo with
  | nil => rfl
  | cons c rest ih =>
    simp only [Memory.wfFrom, Bool.and_eq_true, decide_eq_true_eq] at h
    have hne : c.1 ≠ a := by omega
    simp only [Memory.byteAt, hne, if_false]
    exact ih h.2 (by omega)

theorem byteAt_cellFor (a c : Nat) (b : Byte) (m : Memory) (h : m.byteAt a = 0) :
    Memory.byteAt (cellFor a b ++ m) c = if c = a then b else m.byteAt c := by
  unfold cellFor
  split
  · next hb =>
    subst hb
    by_cases hc : c = a
    · subst hc; simp [h]
    · simp [hc]
  · by_cases hc : c = a
    · subst hc; simp [Memory.byteAt]
    · simp [Memory.byteAt, hc, Ne.symm hc]

theorem store_byteAt_from {m : Memory} {lo : Nat} (h : m.wfFrom lo = true) (a c : Nat) (b : Byte) :
    (m.store a b).byteAt c = if c = a then b else m.byteAt c := by
  induction m generalizing lo with
  | nil => simpa [Memory.store] using byteAt_cellFor a c b [] rfl
  | cons e rest ih =>
    obtain ⟨k, v⟩ := e
    have hw := h
    simp only [Memory.wfFrom, Bool.and_eq_true, decide_eq_true_eq] at h
    unfold Memory.store
    split
    · next hak =>
      apply byteAt_cellFor
      exact byteAt_below (lo := k) (by simpa [Memory.wfFrom, h.2] using h.1.2) hak
    · split
      · next hak =>
        subst hak
        rw [byteAt_cellFor a c b rest (byteAt_below h.2 (by omega))]
        by_cases hc : c = a
        · simp [hc]
        · simp [hc, Memory.byteAt, Ne.symm hc]
      · next hlt hne =>
        by_cases hk : k = c
        · subst hk; simp [Memory.byteAt, Ne.symm hne]
        · simp only [Memory.byteAt, hk, if_false]
          exact ih h.2

/-- Read after write: the byte written at its index, every other byte as before. -/
theorem store_byteAt {m : Memory} (h : m.wf = true) (a c : Nat) (b : Byte) :
    (m.store a b).byteAt c = if c = a then b else m.byteAt c :=
  store_byteAt_from h a c b

theorem cellFor_wfFrom {m : Memory} {lo a : Nat} {b : Byte} (h : m.wfFrom (a + 1) = true) (ha : lo ≤ a) :
    Memory.wfFrom lo (cellFor a b ++ m) = true := by
  unfold cellFor
  split
  · exact wfFrom_mono h (by omega)
  · next hb => simpa [Memory.wfFrom, ha, h] using hb

theorem store_wfFrom {m : Memory} {lo : Nat} (h : m.wfFrom lo = true) {a : Nat} (b : Byte) (ha : lo ≤ a) :
    (m.store a b).wfFrom lo = true := by
  induction m generalizing lo with
  | nil => simpa [Memory.store] using cellFor_wfFrom (m := []) rfl ha
  | cons e rest ih =>
    obtain ⟨k, v⟩ := e
    simp only [Memory.wfFrom, Bool.and_eq_true, decide_eq_true_eq] at h
    unfold Memory.store
    split
    · next hak =>
      apply cellFor_wfFrom _ ha
      simp only [Memory.wfFrom, Bool.and_eq_true, decide_eq_true_eq]
      exact ⟨⟨by omega, h.1.2⟩, h.2⟩
    · split
      · next hak => subst hak; exact cellFor_wfFrom h.2 ha
      · next hlt hne =>
        simp only [Memory.wfFrom, Bool.and_eq_true, decide_eq_true_eq]
        exact ⟨h.1, ih h.2 (by omega)⟩

/-- A write keeps the canonical form. -/
theorem store_wf {m : Memory} (h : m.wf = true) (a : Nat) (b : Byte) : (m.store a b).wf = true :=
  store_wfFrom h b (Nat.zero_le a)

theorem cellFor_within {cap a : Nat} {b : Byte} (ha : a < cap) : Memory.within cap (cellFor a b) = true := by
  unfold cellFor; split <;> simp [Memory.within, ha]

/-- A write below the capacity lists no index the array does not have. -/
theorem store_within {m : Memory} {cap : Nat} (h : m.within cap = true) {a : Nat} (b : Byte) (ha : a < cap) :
    (m.store a b).within cap = true := by
  have hc := cellFor_within (b := b) ha
  induction m with
  | nil => exact hc
  | cons e rest ih =>
    obtain ⟨k, v⟩ := e
    simp only [Memory.within, List.all_cons, Bool.and_eq_true, decide_eq_true_eq] at h hc ih ⊢
    unfold Memory.store
    split
    · simp [List.all_append, hc, h]
    · split
      · simp [List.all_append, hc, h]
      · simp only [List.all_cons, Bool.and_eq_true, decide_eq_true_eq]
        exact ⟨h.1, ih h.2⟩

/-- An array within its capacity holds 0x00 at and beyond it. -/
theorem byteAt_beyond {m : Memory} {cap a : Nat} (h : m.within cap = true) (ha : cap ≤ a) : m.byteAt a = 0 := by
  induction m with
  | nil => rfl
  | cons e rest ih =>
    simp only [Memory.within, List.all_cons, Bool.and_eq_true, decide_eq_true_eq] at h ih
    have hne : e.1 ≠ a := by omega
    simp only [Memory.byteAt, hne, if_false]
    exact ih h.2

/-- A canonical array with every byte 0x00 is the empty list. -/
theorem eq_nil_of_zero {m : Memory} (h : m.wf = true) (hz : ∀ a, m.byteAt a = 0) : m = [] := by
  cases m with
  | nil => rfl
  | cons e rest =>
    exfalso
    have h0 := hz e.1
    simp only [Memory.wf, Memory.wfFrom, Bool.and_eq_true, bne_iff_ne] at h
    simp only [Memory.byteAt, if_true] at h0
    exact h.1.2 h0

theorem fold_store_zero {m : Memory} (h : m.wf = true) (n : Nat) :
    ((List.range n).foldl (fun m j => m.store j 0) m).wf = true ∧
      ∀ a, ((List.range n).foldl (fun m j => m.store j 0) m).byteAt a = if a < n then 0 else m.byteAt a := by
  induction n with
  | zero => simp [h]
  | succ n ih =>
    obtain ⟨hw, hb⟩ := ih
    simp only [List.range_succ, List.foldl_append, List.foldl_cons, List.foldl_nil]
    refine ⟨store_wf hw n 0, fun a => ?_⟩
    rw [store_byteAt hw, hb]
    by_cases h1 : a = n
    · simp [h1]
    · by_cases h2 : a < n
      · simp [h1, h2, Nat.lt_succ_of_lt h2]
      · have h3 : ¬ a < n + 1 := by omega
        simp [h1, h2, h3]

/-- The zero fill writes 0x00 to every index below the capacity and to no other. -/
theorem zeroFill_byteAt {m : Memory} (h : m.wf = true) (cap a : Nat) :
    (zeroFill cap m).byteAt a = if a < cap then 0 else m.byteAt a := (fold_store_zero h cap).2 a

theorem zeroFill_wf {m : Memory} (h : m.wf = true) (cap : Nat) : (zeroFill cap m).wf = true :=
  (fold_store_zero h cap).1

/-- Of an array within its capacity the zero fill leaves nothing listed. -/
theorem zeroFill_eq_nil {m : Memory} {cap : Nat} (h : m.wf = true) (hw : m.within cap = true) :
    zeroFill cap m = [] := by
  apply eq_nil_of_zero (zeroFill_wf h cap)
  intro a
  rw [zeroFill_byteAt h]
  split
  · rfl
  · next hn => exact byteAt_beyond hw (by omega)

end Sys2Proof.Machine
end

