-- ==== Sys2Proof/Laws/Ring.lean ====
section
/-! SUPPORT. The two ring-buffer primitives: what they answer, what they keep, and the queue they implement. -/

namespace Sys2Proof.Machine

/-- A sum of two numbers below the modulus wraps at most once. -/
theorem mod_once {cap x y : Nat} (hx : x < cap) (hy : y ≤ cap) :
    (x + y) % cap = if x + y < cap then x + y else x + y - cap := by
  split
  · next h => exact Nat.mod_eq_of_lt h
  · next h =>
    rw [Nat.mod_eq_sub_mod (by omega), Nat.mod_eq_of_lt (by omega)]

theorem advance_lt {cap x : Nat} (h : 0 < cap) : advance cap x < cap := Nat.mod_lt _ h

/-- The ring after a push that found room (41 R100). -/
def pushedRing (cap : Nat) (r : Ring) (b : Byte) : Ring :=
  { r with buf := r.buf.store r.put b, put := advance cap r.put, cnt := r.cnt + 1 }

/-- The ring after a pop that found a byte (41 R101). -/
def poppedRing (cap : Nat) (r : Ring) : Ring := { r with get := advance cap r.get, cnt := r.cnt - 1 }

/-- A push on a ring that is not full (41 R100). -/
theorem ringPush_room {d : Dir} {cap : Nat} {r : Ring} (b : Byte) (hi : RingInv cap r) (h : r.cnt ≠ cap) :
    ringPush d cap r b = .ok (some (pushedRing cap r b)) := by
  simp [ringPush, h, memWrite, hi.put_lt, pushedRing]

/-- A push on a full ring (41 R100). -/
theorem ringPush_full {d : Dir} {cap : Nat} {r : Ring} (b : Byte) (h : r.cnt = cap) :
    ringPush d cap r b = .ok none := by simp [ringPush, h]

/-- A pop on a ring that is not empty (41 R101). -/
theorem ringPop_some {d : Dir} {cap : Nat} {r : Ring} (hi : RingInv cap r) (h : r.cnt ≠ 0) :
    ringPop d cap r = .ok (some (r.buf.byteAt r.get, poppedRing cap r)) := by
  simp [ringPop, h, memRead, hi.get_lt, poppedRing]

/-- A pop on an empty ring (41 R101). -/
theorem ringPop_empty {d : Dir} {cap : Nat} {r : Ring} (h : r.cnt = 0) : ringPop d cap r = .ok none := by
  simp [ringPop, h]

/-- A push keeps the ranges and the canonical form. -/
theorem pushed_inv {cap : Nat} {r : Ring} (b : Byte) (hi : RingInv cap r) (h : r.cnt ≠ cap) :
    RingInv cap (pushedRing cap r b) where
  get_lt := hi.get_lt
  put_lt := advance_lt (by have := hi.put_lt; omega)
  cnt_le := by have := hi.cnt_le; simp only [pushedRing]; omega
  wf := store_wf hi.wf _ _
  within := store_within hi.within _ hi.put_lt

/-- A pop keeps the ranges and the canonical form. -/
theorem popped_inv {cap : Nat} {r : Ring} (hi : RingInv cap r) :
    RingInv cap (poppedRing cap r) where
  get_lt := advance_lt (by have := hi.get_lt; omega)
  put_lt := hi.put_lt
  cnt_le := by have := hi.cnt_le; simp only [poppedRing]; omega
  wf := hi.wf
  within := hi.within

/-- A push keeps the link between the indices and the count (10 R23). -/
theorem pushed_linked {cap : Nat} {r : Ring} (b : Byte) (hl : RingLinked cap r) :
    RingLinked cap (pushedRing cap r b) := by
  simp only [RingLinked, advance, pushedRing] at *
  rw [hl, Nat.mod_add_mod, Nat.add_assoc]

/-- A pop keeps the link between the indices and the count (10 R23). -/
theorem popped_linked {cap : Nat} {r : Ring} (hl : RingLinked cap r) (h : r.cnt ≠ 0) :
    RingLinked cap (poppedRing cap r) := by
  simp only [RingLinked, advance, poppedRing] at *
  rw [hl, Nat.mod_add_mod]
  congr 1
  omega

/-- A push appends its byte to the queued bytes (10 R23). -/
theorem contents_pushed {cap : Nat} {r : Ring} (b : Byte) (hi : RingInv cap r) (hl : RingLinked cap r)
    (h : r.cnt ≠ cap) :
    (pushedRing cap r b).contents cap = r.contents cap ++ [b] := by
  have hc := hi.cnt_le
  have hg := hi.get_lt
  have hp : r.put = if r.get + r.cnt < cap then r.get + r.cnt else r.get + r.cnt - cap := by
    rw [← mod_once hg hc]; exact hl
  unfold Ring.contents
  simp only [pushedRing, List.range_succ, List.map_append, List.map_cons, List.map_nil]
  congr 1
  · apply List.map_congr_left
    intro j hj
    rw [List.mem_range] at hj
    rw [store_byteAt hi.wf, if_neg]
    rw [mod_once hg (by omega)]
    split at hp <;> split <;> omega
  · rw [store_byteAt hi.wf, mod_once hg hc, ← hp, if_pos rfl]

/-- A pop takes the oldest queued byte (10 R23). -/
theorem contents_popped {cap : Nat} {r : Ring} (hi : RingInv cap r) (h : r.cnt ≠ 0) :
    r.contents cap = r.buf.byteAt r.get :: (poppedRing cap r).contents cap := by
  obtain ⟨n, hn⟩ := Nat.exists_eq_succ_of_ne_zero h
  unfold Ring.contents
  simp only [poppedRing, hn, List.range_succ_eq_map, List.map_cons, List.map_map, Nat.add_zero, Nat.mod_eq_of_lt hi.get_lt,
    Nat.add_sub_cancel, Nat.succ_eq_add_one]
  congr 1
  apply List.map_congr_left
  intro j _
  simp only [Function.comp_apply, advance, Nat.mod_add_mod]
  congr 2
  omega

@[simp] theorem contents_length (cap : Nat) (r : Ring) : (r.contents cap).length = r.cnt := by
  simp [Ring.contents]

theorem contents_of_empty {cap : Nat} {r : Ring} (h : r.cnt = 0) : r.contents cap = [] := by
  simp [Ring.contents, h]

/-- INIT's ring (40 R91): ranges, canonical form, empty and all bytes 0x00. -/
theorem clearedRing_eq {cap : Nat} {r : Ring} (hi : RingInv cap r) : clearedRing cap r = Ring.zero := by
  simp [clearedRing, Ring.zero, zeroFill_eq_nil hi.wf hi.within]

theorem zero_inv {cap : Nat} (h : 0 < cap) : RingInv cap Ring.zero :=
  ⟨h, h, Nat.zero_le _, rfl, rfl⟩

theorem zero_linked {cap : Nat} : RingLinked cap Ring.zero := by simp [RingLinked, Ring.zero]

end Sys2Proof.Machine
end

