-- ==== Sys2Proof/Laws/Ops.lean ====
section
/-! SUPPORT. The shared operations, one lemma each that says everything it can do, and the ways the invariant carries
over. -/

namespace Sys2Proof.Machine

/-- Two results of `next` with equal states. -/
theorem next_inj {s t : State} (h : (Host.Outcome.next s : Result) = .next t) : s = t := by
  cases h; rfl

/-- Everything `try_push` can do on a ring in its ranges (41 R100): count one overrun, or store the byte. -/
theorem tryPush_eq {d : Dir} {i : Nat} {s : State} (b : Byte) (h : RingInv (s.cap d) ((s.inst i).ring d)) :
    tryPush d i b s =
      if ((s.inst i).ring d).cnt = s.cap d then .ok (false, satInc16 (overrunCounter d) s)
      else .ok (true, s.setInst i ((s.inst i).setRing d (pushedRing (s.cap d) ((s.inst i).ring d) b))) := by
  by_cases hc : ((s.inst i).ring d).cnt = s.cap d
  · simp [tryPush, ringPush_full b hc, hc]
  · simp [tryPush, ringPush_room b h hc, hc]

/-- Everything `try_pop` can do on a ring in its ranges (41 R101): nothing, or take the oldest byte. -/
theorem tryPop_eq {d : Dir} {i : Nat} {s : State} (h : RingInv (s.cap d) ((s.inst i).ring d)) :
    tryPop d i s =
      if ((s.inst i).ring d).cnt = 0 then .ok (none, s)
      else .ok (some (((s.inst i).ring d).buf.byteAt ((s.inst i).ring d).get),
        s.setInst i ((s.inst i).setRing d (poppedRing (s.cap d) ((s.inst i).ring d)))) := by
  by_cases hc : ((s.inst i).ring d).cnt = 0
  · simp [tryPop, ringPop_empty hc, hc]
  · simp [tryPop, ringPop_some h hc, hc]

/-- Everything the shared checks of START, PUTC and GETC can do (60 R155). -/
theorem onActive_cases (i : Nat) (s : State) (body : Result) :
    (s.nInst ≤ i ∧ onActive i s body = .next (respond ⟨.invalidArgument, 0⟩ s)) ∨
    (i < s.nInst ∧ (s.inst i).active = false ∧ onActive i s body = .next (respond ⟨.badInstance, 0⟩ s)) ∨
    (i < s.nInst ∧ (s.inst i).active = true ∧ onActive i s body = body) := by
  unfold onActive raiseError
  by_cases h1 : s.nInst ≤ i
  · simp [h1]
  · by_cases h2 : (s.inst i).active = false
    · simp [h1, h2, Nat.lt_of_not_le h1]
    · simp [h1, Nat.lt_of_not_le h1, Bool.eq_true_of_not_eq_false h2]

theorem onActive_active {i : Nat} {s : State} (body : Result) (hn : i < s.nInst) (ha : (s.inst i).active = true) :
    onActive i s body = body := by
  simp [onActive, Nat.not_le.mpr hn, ha]

/-- An instance the registry does not have reads as inert. -/
theorem inst_absent {s : State} {i : Nat} (h : s.nInst ≤ i) : s.inst i = Inst.absent := by
  simp [State.inst, List.getElem?_eq_none h]

theorem lt_of_active {s : State} {i : Nat} (h : (s.inst i).active = true) : i < s.nInst := by
  by_contra hn
  rw [inst_absent (Nat.le_of_not_lt hn)] at h
  cases h

/-! ### The invariant under the shared updates -/

/-- The bounds of 00 R5, one by one. -/
theorem params_ok_bounds {p : Params} (h : p.ok = true) :
    1 ≤ p.nInst ∧ p.nInst ≤ 16 ∧ 1 ≤ p.rxCap ∧ p.rxCap < p.txCap ∧ p.txCap ≤ 65535 := by
  simp only [Params.ok, Bool.and_eq_true, decide_eq_true_eq] at h
  tauto

theorem Inv.rxCap_pos {s : State} (h : Inv s) : 0 < s.rxCap := (params_ok_bounds h.params).2.2.1

theorem Inv.cap_lt {s : State} (h : Inv s) : s.rxCap < s.txCap := (params_ok_bounds h.params).2.2.2.1

theorem Inv.txCap_le {s : State} (h : Inv s) : s.txCap ≤ 65535 := (params_ok_bounds h.params).2.2.2.2

theorem Inv.nInst_le {s : State} (h : Inv s) : s.nInst ≤ 16 := (params_ok_bounds h.params).2.1

theorem Inv.cap_pos {s : State} (h : Inv s) (d : Dir) : 0 < s.cap d := by
  have h1 := h.rxCap_pos
  have h2 := h.cap_lt
  cases d
  · exact h1
  · simp only [cap_tx]; omega

theorem Inv.ring {s : State} (h : Inv s) {i : Nat} (hi : i < s.nInst) (d : Dir) :
    RingInv (s.cap d) ((s.inst i).ring d) := by
  cases d
  · exact (h.insts i hi).rx
  · exact (h.insts i hi).tx

theorem Inv.linked {s : State} (h : Inv s) {i : Nat} (ha : (s.inst i).active = true) (d : Dir) :
    RingLinked (s.cap d) ((s.inst i).ring d) := by
  cases d
  · exact (h.insts i (lt_of_active ha)).rxLinked ha
  · exact (h.insts i (lt_of_active ha)).txLinked ha

/-- The invariant speaks of the parameters and the registry alone. -/
theorem inv_of_insts {s t : State} (hr : t.rxCap = s.rxCap) (ht : t.txCap = s.txCap)
    (hd : t.defaultStream = s.defaultStream) (h : t.insts = s.insts) (hs : Inv s) : Inv t := by
  have hn := nInst_congr h
  refine ⟨?_, fun i hi => ?_⟩
  · simpa [State.params, hr, ht, hd, hn] using hs.params
  · rw [inst_congr h, hr, ht]
    exact hs.insts i (by rwa [← hn])

theorem inv_setInst {s : State} {i : Nat} {c : Inst} (hs : Inv s) (hc : InstInv s.rxCap s.txCap c)
    (hi : i < s.nInst) : Inv (s.setInst i c) := by
  refine ⟨by simpa [State.params] using hs.params, fun j hj => ?_⟩
  rw [inst_setInst s i j c hi]
  split
  · exact hc
  · exact hs.insts j (by simpa using hj)

theorem inv_respond {s : State} (r : Rsp) (h : Inv s) : Inv (respond r s) := inv_of_insts (s := s) rfl rfl rfl rfl h

theorem inv_logHal {s : State} (t : HalTx) (h : Inv s) : Inv (logHal t s) := inv_of_insts (s := s) rfl rfl rfl rfl h

theorem inv_satInc16 {s : State} (k : CounterId) (h : Inv s) : Inv (satInc16 k s) := inv_of_insts (s := s) rfl rfl rfl rfl h

theorem inv_classify {s : State} (sr : Byte) (h : Inv s) : Inv (classify sr s) :=
  inv_of_insts (by simp) (by simp) (by simp) (by simp) h

theorem inv_takeAnswer {s : State} (h : Inv s) : Inv s.takeAnswer :=
  inv_of_insts (by simp) (by simp) (by simp) (by simp) h

end Sys2Proof.Machine
end

