-- ==== Sys2Proof/Laws/Cases.lean ====
section
/-! SUPPORT. What each shared operation and each meaning can do, in every state: one inversion lemma a function, with no
assumption on the state, and the exact form under the invariant. -/

namespace Sys2Proof.Machine

/-! ### The primitives -/

theorem ringPush_cases {d : Dir} {cap : Nat} {r : Ring} {b : Byte} {o : Option Ring}
    (h : ringPush d cap r b = .ok o) :
    (r.cnt = cap ∧ o = none) ∨ (r.cnt ≠ cap ∧ r.put < cap ∧ o = some (pushedRing cap r b)) := by
  unfold ringPush memWrite at h
  by_cases hc : r.cnt = cap
  · left; simp_all
  · right
    by_cases hp : r.put < cap
    · simp only [hc, hp, if_true, if_false, Except.ok.injEq] at h
      exact ⟨hc, hp, h.symm⟩
    · simp [hc, hp] at h

theorem ringPop_cases {d : Dir} {cap : Nat} {r : Ring} {o : Option (Byte × Ring)}
    (h : ringPop d cap r = .ok o) :
    (r.cnt = 0 ∧ o = none) ∨
      (r.cnt ≠ 0 ∧ r.get < cap ∧ o = some (r.buf.byteAt r.get, poppedRing cap r)) := by
  unfold ringPop memRead at h
  by_cases hc : r.cnt = 0
  · left; simp_all
  · right
    by_cases hp : r.get < cap
    · simp only [hc, hp, if_true, if_false, Except.ok.injEq] at h
      exact ⟨hc, hp, h.symm⟩
    · simp [hc, hp] at h

/-- Every way `try_push` can end without a fault (41 R100). -/
theorem tryPush_cases {d : Dir} {i : Nat} {b : Byte} {s t : State} {ok : Bool}
    (h : tryPush d i b s = .ok (ok, t)) :
    (((s.inst i).ring d).cnt = s.cap d ∧ ok = false ∧ t = satInc16 (overrunCounter d) s) ∨
    (((s.inst i).ring d).cnt ≠ s.cap d ∧ ok = true ∧
      t = s.setInst i ((s.inst i).setRing d (pushedRing (s.cap d) ((s.inst i).ring d) b))) := by
  unfold tryPush at h
  split at h
  · cases h
  · next hp =>
    obtain ⟨h1, -⟩ | ⟨-, -, h2⟩ := ringPush_cases hp
    · simp only [Except.ok.injEq, Prod.mk.injEq] at h
      exact .inl ⟨h1, h.1.symm, h.2.symm⟩
    · cases h2
  · next r hp =>
    obtain ⟨-, h2⟩ | ⟨h1, -, h2⟩ := ringPush_cases hp
    · cases h2
    · simp only [Option.some.injEq] at h2
      subst h2
      simp only [Except.ok.injEq, Prod.mk.injEq] at h
      exact .inr ⟨h1, h.1.symm, h.2.symm⟩

/-- Every way `try_pop` can end without a fault (41 R101). -/
theorem tryPop_cases {d : Dir} {i : Nat} {s t : State} {o : Option Byte}
    (h : tryPop d i s = .ok (o, t)) :
    (((s.inst i).ring d).cnt = 0 ∧ o = none ∧ t = s) ∨
    (((s.inst i).ring d).cnt ≠ 0 ∧ o = some (((s.inst i).ring d).buf.byteAt ((s.inst i).ring d).get) ∧
      t = s.setInst i ((s.inst i).setRing d (poppedRing (s.cap d) ((s.inst i).ring d)))) := by
  unfold tryPop at h
  split at h
  · cases h
  · next hp =>
    obtain ⟨h1, -⟩ | ⟨-, -, h2⟩ := ringPop_cases hp
    · simp only [Except.ok.injEq, Prod.mk.injEq] at h
      exact .inl ⟨h1, h.1.symm, h.2.symm⟩
    · cases h2
  · next b r hp =>
    obtain ⟨-, h2⟩ | ⟨h1, -, h2⟩ := ringPop_cases hp
    · cases h2
    · simp only [Option.some.injEq, Prod.mk.injEq] at h2
      obtain ⟨rfl, rfl⟩ := h2
      simp only [Except.ok.injEq, Prod.mk.injEq] at h
      exact .inr ⟨h1, h.1.symm, h.2.symm⟩

/-! ### INIT and START -/

/-- The state after a successful INIT (40 R91), before its response. -/
def initDone (i : Nat) (cs crnl : Bool) (s : State) : State :=
  { s.setInst i
      { active := true, cfgCs := cs, cfgCrnl := crnl, streamPub := false, lineEn := false, rxie := false,
        txeie := false, rx := clearedRing s.rxCap (s.inst i).rx, tx := clearedRing s.txCap (s.inst i).tx } with
    halLog := s.halLog ++ [.lineDisable i, .rxieDisable i, .txeieDisable i] }

theorem bindHandle_init {i : Nat} {s : State} (cs crnl : Bool) (h : i < s.nInst) :
    bindHandle i (halTxeieDisable i (halRxieDisable i (halLineDisable i (initRegisters i cs crnl s)))) =
      initDone i cs crnl s := by
  simp [bindHandle, halTxeieDisable, halRxieDisable, halLineDisable, initRegisters, initDone, logHal, State.setInst,
    State.inst, State.nInst] at h ⊢
  simp [h]

/-- Everything INIT can do (40 R91). -/
theorem execInit_cases (i : Nat) (cs crnl : Bool) (s : State) :
    (s.nInst ≤ i ∧ execInit i cs crnl s = .next (respond ⟨.invalidArgument, 0⟩ s)) ∨
    (i < s.nInst ∧ (s.inst i).active = true ∧ execInit i cs crnl s = .next (respond ⟨.invalidState, 0⟩ s)) ∨
    (i < s.nInst ∧ (s.inst i).active = false ∧
      execInit i cs crnl s = .next (respond ⟨.ok, 0⟩ (initDone i cs crnl s))) := by
  unfold execInit raiseError answerOk
  by_cases h1 : s.nInst ≤ i
  · simp [h1]
  · have h1' := Nat.lt_of_not_le h1
    cases h2 : (s.inst i).active
    · simp [h1, h1', bindHandle_init]
    · simp [h1, h1']

/-- The state after a successful START (40 R92), before its response. -/
def startDone (i : Nat) (s : State) : State :=
  { s.setInst i { s.inst i with
      rxie := true, lineEn := true, streamPub := (s.inst i).streamPub || (s.inst i).cfgCs } with
    halLog := s.halLog ++ [.rxieEnable i, .lineEnable i] }

theorem publish_start {i : Nat} {s : State} (h : i < s.nInst) :
    publishStream i (halLineEnable i (halRxieEnable i s)) = startDone i s := by
  cases hc : (s.inst i).cfgCs <;>
    simp [publishStream, halLineEnable, halRxieEnable, startDone, h, hc] <;>
    simp [logHal, State.setInst]

/-- Everything START can do (40 R92). -/
theorem execStart_cases (i : Nat) (s : State) :
    (s.nInst ≤ i ∧ execStart i s = .next (respond ⟨.invalidArgument, 0⟩ s)) ∨
    (i < s.nInst ∧ (s.inst i).active = false ∧ execStart i s = .next (respond ⟨.badInstance, 0⟩ s)) ∨
    (i < s.nInst ∧ (s.inst i).active = true ∧ execStart i s = .next (respond ⟨.ok, 0⟩ (startDone i s))) := by
  obtain ⟨h, e⟩ | ⟨h, ha, e⟩ | ⟨h, ha, e⟩ :=
    onActive_cases i s (answerOk 0 (publishStream i (halLineEnable i (halRxieEnable i s))))
  · exact .inl ⟨h, e⟩
  · exact .inr (.inl ⟨h, ha, e⟩)
  · refine .inr (.inr ⟨h, ha, ?_⟩)
    rw [← publish_start h]
    exact e

/-! ### PUTC and GETC -/

/-- The state with one byte pushed on the transmit buffer of instance `i`. -/
def txPushed (i : Nat) (b : Byte) (s : State) : State :=
  s.setInst i { s.inst i with tx := pushedRing s.txCap (s.inst i).tx b }

/-- Every way PUTC's pushes can end without a fault (43 R130, R131): the byte queued, the pair queued, the carriage
return alone queued, or nothing queued. -/
theorem putcPushes_cases {i : Nat} {b : Byte} {s t : State} {ok : Bool} (hn : i < s.nInst)
    (h : putcPushes i b s = .ok (ok, t)) :
    (ok = true ∧ translates (s.inst i) b = false ∧ (s.inst i).tx.cnt ≠ s.txCap ∧ t = txPushed i b s) ∨
    (ok = true ∧ translates (s.inst i) b = true ∧ (s.inst i).tx.cnt ≠ s.txCap ∧ (s.inst i).tx.cnt + 1 ≠ s.txCap ∧
      t = txPushed i b (txPushed i carriageReturn s)) ∨
    (ok = false ∧ translates (s.inst i) b = true ∧ (s.inst i).tx.cnt ≠ s.txCap ∧ (s.inst i).tx.cnt + 1 = s.txCap ∧
      t = satInc16 .txOvr (txPushed i carriageReturn s)) ∨
    (ok = false ∧ (s.inst i).tx.cnt = s.txCap ∧ t = satInc16 .txOvr s) := by
  unfold putcPushes at h
  split at h
  · next htr =>
    split at h
    · cases h
    · next s1 hp =>
      simp only [Except.ok.injEq, Prod.mk.injEq] at h
      obtain ⟨rfl, rfl⟩ := h
      obtain ⟨hc, -, e⟩ | ⟨-, e, -⟩ := tryPush_cases hp
      · exact .inr (.inr (.inr ⟨rfl, hc, e⟩))
      · cases e
    · next s1 hp =>
      obtain ⟨-, e, -⟩ | ⟨hc, -, e⟩ := tryPush_cases hp
      · cases e
      · have e1 : s1 = txPushed i carriageReturn s := e
        subst e1
        obtain ⟨hc2, ek, e2⟩ | ⟨hc2, ek, e2⟩ := tryPush_cases h
        · refine .inr (.inr (.inl ⟨ek, htr, hc, ?_, e2⟩))
          simpa [txPushed, hn, pushedRing] using hc2
        · refine .inr (.inl ⟨ek, htr, hc, ?_, e2⟩)
          simpa [txPushed, hn, pushedRing] using hc2
  · next htr =>
    obtain ⟨hc, ek, e⟩ | ⟨hc, ek, e⟩ := tryPush_cases h
    · exact .inr (.inr (.inr ⟨ek, hc, e⟩))
    · exact .inl ⟨ek, by simpa using htr, hc, e⟩

/-- PUTC's pushes complete when the transmit ring is in its ranges. -/
theorem putcPushes_ok {i : Nat} (b : Byte) {s : State} (hs : Inv s) (hn : i < s.nInst) :
    ∃ ok t, putcPushes i b s = .ok (ok, t) := by
  have h1 : ∀ b, tryPush .tx i b s = _ := fun b => tryPush_eq b (hs.ring hn .tx)
  unfold putcPushes
  split
  · rw [h1]
    split
    · next he => split at he <;> cases he
    · next s1 he => exact ⟨_, _, rfl⟩
    · next s1 he =>
      split at he
      · cases he
      · next hc =>
        simp only [Except.ok.injEq, Prod.mk.injEq, true_and] at he
        subst he
        have hr : RingInv ((s.setInst i ((s.inst i).setRing .tx (pushedRing (s.cap .tx) ((s.inst i).ring .tx) carriageReturn))).cap .tx)
            (((s.setInst i ((s.inst i).setRing .tx (pushedRing (s.cap .tx) ((s.inst i).ring .tx) carriageReturn))).inst i).ring .tx) := by
          simpa [hn] using pushed_inv carriageReturn (hs.ring hn .tx) hc
        rw [tryPush_eq b hr]
        split <;> exact ⟨_, _, rfl⟩
  · rw [h1]
    split <;> exact ⟨_, _, rfl⟩

/-- Every way PUTC can end on an active instance (43 R130). -/
theorem putcActive_cases {i : Nat} {b : Byte} {s t : State} (h : putcActive i b s = .next t) :
    ∃ ok s1, putcPushes i b s = .ok (ok, s1) ∧
      t = respond ⟨if ok then .ok else .overrun, 0⟩ (enableIfWasEmpty ((s.inst i).tx.cnt == 0) i s1) := by
  unfold putcActive at h
  split at h
  · cases h
  · next ok s1 hp =>
    refine ⟨ok, s1, hp, ?_⟩
    cases ok
    · exact (next_inj h).symm
    · exact (next_inj h).symm

/-- Everything GETC can do on an active instance (43 R132). -/
theorem getcActive_cases {i : Nat} {s t : State} (h : getcActive i s = .next t) :
    ((s.inst i).rx.cnt = 0 ∧ t = respond ⟨.overrun, 0⟩ s) ∨
    ((s.inst i).rx.cnt ≠ 0 ∧
      t = respond ⟨.ok, zextByte ((s.inst i).rx.buf.byteAt (s.inst i).rx.get)⟩
        (s.setInst i { s.inst i with rx := poppedRing s.rxCap (s.inst i).rx })) := by
  unfold getcActive at h
  split at h
  · cases h
  · next s1 hp =>
    obtain ⟨hc, -, e⟩ | ⟨-, e, -⟩ := tryPop_cases hp
    · subst e; exact .inl ⟨hc, (next_inj h).symm⟩
    · cases e
  · next b s1 hp =>
    obtain ⟨-, e, -⟩ | ⟨hc, eb, e⟩ := tryPop_cases hp
    · cases e
    · simp only [Option.some.injEq] at eb
      subst eb; subst e
      exact .inr ⟨hc, (next_inj h).symm⟩

/-- GETC completes on an active instance whose receive ring is in its ranges. -/
theorem getcActive_ok {i : Nat} {s : State} (hs : Inv s) (hn : i < s.nInst) : ∃ t, getcActive i s = .next t := by
  unfold getcActive
  rw [tryPop_eq (hs.ring hn .rx)]
  split
  · next he => split at he <;> cases he
  · exact ⟨_, rfl⟩
  · exact ⟨_, rfl⟩

/-! ### STAT, CNTRD -/

/-- Everything STAT can do (44 R142). -/
theorem execStat_cases (i : Nat) (sel : StatSel) (s : State) :
    ((s.nInst ≤ i ∨ sel = .illegal) ∧ execStat i sel s = .next (respond ⟨.invalidArgument, 0⟩ s)) ∨
    (i < s.nInst ∧ sel ≠ .illegal ∧ (s.inst i).active = false ∧ execStat i sel s = .next (respond ⟨.ok, 0⟩ s)) ∨
    (i < s.nInst ∧ sel ≠ .illegal ∧ (s.inst i).active = true ∧
      execStat i sel s = .next (respond ⟨.ok, statVal s i sel⟩ s)) := by
  unfold execStat raiseError answerOk
  by_cases h1 : s.nInst ≤ i
  · simp [h1]
  · by_cases h2 : sel = .illegal
    · simp [h1, h2]
    · cases h3 : (s.inst i).active <;> simp [h1, h2, Nat.lt_of_not_le h1]

/-- Everything CNTRD can do (44 R140). -/
theorem execCntrd_cases (k : Nat) (s : State) :
    (6 ≤ k ∧ counterOf k = none ∧ execCntrd k s = .next (respond ⟨.invalidArgument, 0⟩ s)) ∨
    (k < 6 ∧ ∃ c, counterOf k = some c ∧ execCntrd k s = .next (respond ⟨.ok, s.cnt.get c⟩ s)) := by
  match k with
  | 0 => exact .inr ⟨by decide, _, rfl, rfl⟩
  | 1 => exact .inr ⟨by decide, _, rfl, rfl⟩
  | 2 => exact .inr ⟨by decide, _, rfl, rfl⟩
  | 3 => exact .inr ⟨by decide, _, rfl, rfl⟩
  | 4 => exact .inr ⟨by decide, _, rfl, rfl⟩
  | 5 => exact .inr ⟨by decide, _, rfl, rfl⟩
  | n + 6 => exact .inl ⟨by omega, rfl, rfl⟩

/-! ### IRQ -/

/-- The state after step 3 (42 R113 to R115). -/
def afterReceive (i : Nat) (sr : Byte) (s : State) : State :=
  if srRxne sr then
    if (s.inst i).rx.cnt = s.rxCap then satInc16 .rxOvr (classify sr (halDataRead i s).2)
    else (classify sr (halDataRead i s).2).setInst i
      { s.inst i with rx := pushedRing s.rxCap (s.inst i).rx s.nextAnswer }
  else s

/-- The state after step 4 (42 R116, R117). -/
def afterTransmit (i : Nat) (sr : Byte) (s : State) : State :=
  if srTxe sr then
    if (s.inst i).tx.cnt = 0 then halTxeieDisable i s
    else halDataWrite i ((s.inst i).tx.buf.byteAt (s.inst i).tx.get)
      (s.setInst i { s.inst i with tx := poppedRing s.txCap (s.inst i).tx })
  else s

/-- Every way step 3 can end without a fault. -/
theorem irqReceive_cases {i : Nat} {sr : Byte} {s t : State} (h : irqReceive i sr s = .ok t) :
    t = afterReceive i sr s := by
  unfold irqReceive at h
  unfold afterReceive
  split at h
  · next hx =>
    rw [if_pos hx]
    split at h
    · cases h
    · next ok s1 hp =>
      simp only [Except.ok.injEq] at h
      subst h
      have hi : ∀ j, (classify sr (halDataRead i s).2).inst j = s.inst j := fun j => by
        simp [halDataRead]
      have hc : (classify sr (halDataRead i s).2).cap .rx = s.rxCap := by simp [halDataRead]
      obtain ⟨h1, -, e⟩ | ⟨h1, -, e⟩ := tryPush_cases hp
      · rw [hi, hc] at h1
        rw [if_pos (by simpa using h1), e]
        rfl
      · rw [hi, hc] at h1
        rw [if_neg (by simpa using h1), e, hi, hc]
        rfl
  · next hx =>
    rw [if_neg hx]
    simp only [Except.ok.injEq] at h
    exact h.symm

/-- Every way step 4 can end without a fault. -/
theorem irqTransmit_cases {i : Nat} {sr : Byte} {s t : State} (h : irqTransmit i sr s = .ok t) :
    t = afterTransmit i sr s := by
  unfold irqTransmit at h
  unfold afterTransmit
  split at h
  · next hx =>
    rw [if_pos hx]
    split at h
    · cases h
    · next b s1 hp =>
      simp only [Except.ok.injEq] at h
      subst h
      obtain ⟨-, e, -⟩ | ⟨h1, eb, e⟩ := tryPop_cases hp
      · cases e
      · simp only [Option.some.injEq] at eb
        subst eb; subst e
        rw [if_neg (by simpa using h1)]
        rfl
    · next s1 hp =>
      simp only [Except.ok.injEq] at h
      subst h
      obtain ⟨h1, -, e⟩ | ⟨-, e, -⟩ := tryPop_cases hp
      · subst e; rw [if_pos (by simpa using h1)]
      · cases e
  · next hx =>
    rw [if_neg hx]
    simp only [Except.ok.injEq] at h
    exact h.symm

/-- The state after an event on an active instance (42 R110). -/
def irqDone (i : Nat) (s : State) : State :=
  afterTransmit i s.nextAnswer
    (afterReceive i s.nextAnswer (logHal (.statusRead i s.nextAnswer) s.takeAnswer))

/-- Everything IRQ can do without a fault (42 R110, R111, R120). -/
theorem execIrq_cases {i : Nat} {s t : State} (h : execIrq i s = .next t) :
    (s.nInst ≤ i ∧ t = s) ∨
    (i < s.nInst ∧ (s.inst i).active = false ∧ t = halLineDisable i s) ∨
    (i < s.nInst ∧ (s.inst i).active = true ∧ t = irqDone i s) := by
  unfold execIrq at h
  split at h
  · next hn => exact .inl ⟨hn, (next_inj h).symm⟩
  · next hn =>
    split at h
    · next ha => exact .inr (.inl ⟨Nat.lt_of_not_le hn, ha, (next_inj h).symm⟩)
    · next ha =>
      refine .inr (.inr ⟨Nat.lt_of_not_le hn, by simpa using ha, ?_⟩)
      unfold irqActive at h
      split at h
      · cases h
      · next s1 h1 =>
        split at h
        · cases h
        · next s2 h2 =>
          have e1 := irqReceive_cases h1
          have e2 := irqTransmit_cases h2
          rw [← next_inj h, e2, e1]
          rfl

/-- Step 3 completes when the receive ring is in its ranges. -/
theorem irqReceive_ok {i : Nat} (sr : Byte) {s : State} (hs : Inv s) (hn : i < s.nInst) :
    irqReceive i sr s = .ok (afterReceive i sr s) := by
  have hc : Inv (classify sr (halDataRead i s).2) :=
    inv_classify sr (inv_logHal _ (inv_takeAnswer hs))
  have hn' : i < (classify sr (halDataRead i s).2).nInst := by simpa [halDataRead] using hn
  have : ∃ t, irqReceive i sr s = .ok t := by
    unfold irqReceive
    split
    · rw [tryPush_eq _ (hc.ring hn' .rx)]
      split
      · next he => split at he <;> cases he
      · exact ⟨_, rfl⟩
    · exact ⟨_, rfl⟩
  obtain ⟨t, ht⟩ := this
  rw [ht, irqReceive_cases ht]

/-- Step 4 completes when the transmit ring is in its ranges. -/
theorem irqTransmit_ok {i : Nat} (sr : Byte) {s : State} (h : RingInv s.txCap (s.inst i).tx) :
    irqTransmit i sr s = .ok (afterTransmit i sr s) := by
  have : ∃ t, irqTransmit i sr s = .ok t := by
    unfold irqTransmit
    split
    · rw [tryPop_eq (d := .tx) h]
      split
      · next he => split at he <;> cases he
      · exact ⟨_, rfl⟩
      · exact ⟨_, rfl⟩
    · exact ⟨_, rfl⟩
  obtain ⟨t, ht⟩ := this
  rw [ht, irqTransmit_cases ht]

/-- Step 3 leaves every transmit ring, every register but RX's, and every other instance. -/
theorem afterReceive_inst {i : Nat} {sr : Byte} {s : State} (hn : i < s.nInst) (j : Nat) :
    (afterReceive i sr s).inst j =
      if j = i ∧ srRxne sr = true ∧ (s.inst i).rx.cnt ≠ s.rxCap then
        { s.inst i with rx := pushedRing s.rxCap (s.inst i).rx s.nextAnswer }
      else s.inst j := by
  unfold afterReceive
  cases hx : srRxne sr
  · simp
  · by_cases hc : (s.inst i).rx.cnt = s.rxCap
    · simp [hc, halDataRead]
    · have hn' : i < (classify sr (halDataRead i s).2).nInst := by simpa [halDataRead] using hn
      simp only [if_true, hc, if_false]
      rw [inst_setInst _ _ _ _ hn']
      by_cases hj : j = i <;> simp [hj, hc, halDataRead]

@[simp] theorem afterReceive_txCap (i : Nat) (sr : Byte) (s : State) : (afterReceive i sr s).txCap = s.txCap := by
  unfold afterReceive
  split
  · split <;> simp [halDataRead]
  · rfl

@[simp] theorem afterReceive_rxCap (i : Nat) (sr : Byte) (s : State) : (afterReceive i sr s).rxCap = s.rxCap := by
  unfold afterReceive
  split
  · split <;> simp [halDataRead]
  · rfl

@[simp] theorem afterReceive_nInst (i : Nat) (sr : Byte) (s : State) : (afterReceive i sr s).nInst = s.nInst := by
  unfold afterReceive
  split
  · split <;> simp [halDataRead]
  · rfl

theorem afterReceive_tx {i : Nat} {sr : Byte} {s : State} (hn : i < s.nInst) (j : Nat) :
    ((afterReceive i sr s).inst j).tx = (s.inst j).tx := by
  rw [afterReceive_inst hn]
  split
  · next h => rw [h.1]
  · rfl

/-- IRQ completes on an active instance in every state that meets the invariant. -/
theorem execIrq_active {i : Nat} {s : State} (hs : Inv s) (ha : (s.inst i).active = true) :
    execIrq i s = .next (irqDone i s) := by
  have hn := lt_of_active ha
  have hs1 : Inv (logHal (.statusRead i s.nextAnswer) s.takeAnswer) := inv_logHal _ (inv_takeAnswer hs)
  have hn1 : i < (logHal (.statusRead i s.nextAnswer) s.takeAnswer).nInst := by simpa using hn
  unfold execIrq irqActive halStatusRead
  rw [if_neg (Nat.not_le.mpr hn), if_neg (by simp [ha])]
  simp only [irqReceive_ok _ hs1 hn1]
  have ht : RingInv (afterReceive i s.nextAnswer (logHal (.statusRead i s.nextAnswer) s.takeAnswer)).txCap
      ((afterReceive i s.nextAnswer (logHal (.statusRead i s.nextAnswer) s.takeAnswer)).inst i).tx := by
    rw [afterReceive_tx hn1]
    simpa using (hs.insts i hn).tx
  simp only [irqTransmit_ok _ ht]
  rfl

/-! ### One step -/

/-- Everything one step can do: nothing, a reserved word answered, or the decoded operation (20 R50, 30 R63). -/
theorem step_cases (s : State) :
    (s.inputs = [] ∧ step s = .next s) ∨
    (∃ w rest e, s.inputs = w :: rest ∧ decode w = .error e ∧
      step s = .next (respond ⟨.invalidArgument, 0⟩ { s with inputs := rest })) ∨
    (∃ w rest i, s.inputs = w :: rest ∧ decode w = .ok i ∧ step s = exec i { s with inputs := rest }) := by
  cases h : s.inputs with
  | nil => left; simp [step, takeInput, h]
  | cons w rest =>
    right
    cases hd : decode w with
    | error e => left; exact ⟨w, rest, e, rfl, hd, by simp [step, takeInput, h, hd, rejectReserved, raiseError]⟩
    | ok i => right; exact ⟨w, rest, i, rfl, hd, by simp [step, takeInput, h, hd]⟩

end Sys2Proof.Machine
end

