-- ==== Sys2Proof/Laws/Decode.lean ====
section
/-! SUPPORT. The fields of a command word as numbers, and the fields of a word that was encoded. -/

namespace Sys2Proof

/-- `op` is the word's number over 4096 (30 R61). -/
theorem opField_eq (w : BitVec 16) : opField w = w.toNat / 4096 := by
  have := w.isLt
  simp only [opField, BitVec.extractLsb'_toNat, Nat.shiftRight_eq_div_pow]
  omega

/-- `inst` is the second hexadecimal digit (30 R61). -/
theorem instField_eq (w : BitVec 16) : instField w = w.toNat / 256 % 16 := by
  simp only [instField, BitVec.extractLsb'_toNat, Nat.shiftRight_eq_div_pow]

/-- `arg` is the low byte (30 R61). -/
theorem argField_toNat (w : BitVec 16) : (argField w).toNat = w.toNat % 256 := by
  simp only [argField, BitVec.extractLsb'_toNat, Nat.shiftRight_zero]

theorem opField_lt (w : BitVec 16) : opField w < 16 := by
  have := w.isLt
  rw [opField_eq]
  omega

theorem toNat_commandWord {op inst : Nat} (arg : Byte) (ho : op < 16) (hi : inst < 16) :
    (BitVec.ofNat 16 (op * 4096 + inst * 256 + arg.toNat)).toNat = op * 4096 + inst * 256 + arg.toNat := by
  have := arg.isLt
  rw [BitVec.toNat_ofNat]
  omega

/-- The operation code of an assembled word. -/
theorem opField_commandWord {op inst : Nat} (arg : Byte) (ho : op < 16) (hi : inst < 16) :
    opField (BitVec.ofNat 16 (op * 4096 + inst * 256 + arg.toNat)) = op := by
  have := arg.isLt
  rw [opField_eq, toNat_commandWord arg ho hi]
  omega

/-- The instance of an assembled word. -/
theorem instField_commandWord {op inst : Nat} (arg : Byte) (ho : op < 16) (hi : inst < 16) :
    instField (BitVec.ofNat 16 (op * 4096 + inst * 256 + arg.toNat)) = inst := by
  have := arg.isLt
  rw [instField_eq, toNat_commandWord arg ho hi]
  omega

/-- The operand byte of an assembled word. -/
theorem argField_commandWord {op inst : Nat} (arg : Byte) (ho : op < 16) (hi : inst < 16) :
    argField (BitVec.ofNat 16 (op * 4096 + inst * 256 + arg.toNat)) = arg := by
  have := arg.isLt
  apply BitVec.eq_of_toNat_eq
  rw [argField_toNat, toNat_commandWord arg ho hi]
  omega

theorem csField_configArg (cs crnl : Bool) : csField (configArg cs crnl) = cs := by
  cases cs <;> cases crnl <;> rfl

theorem crnlField_configArg (cs crnl : Bool) : crnlField (configArg cs crnl) = crnl := by
  cases cs <;> cases crnl <;> rfl

theorem selField_selArg (sel : StatSel) : selField (selArg sel) = sel := by cases sel <;> rfl

theorem counterField_lt (arg : Byte) : counterField arg < 8 := (arg.extractLsb' 0 3).isLt

end Sys2Proof
end

