-- ==== Sys2Proof/Laws/Irq.lean ====
section
/-! SUPPORT. What an event on an active instance leaves in each field (42 R110), and that it keeps the invariant. -/

namespace Sys2Proof.Machine

@[simp] theorem afterReceive_defaultStream (i : Nat) (sr : Byte) (s : State) :
    (afterReceive i sr s).defaultStream = s.defaultStream := by
  unfold afterReceive
  split
  · split <;> simp [halDataRead]
  · rfl

@[simp] theorem afterReceive_inputs (i : Nat) (sr : Byte) (s : State) : (afterReceive i sr s).inputs = s.inputs := by
  unfold afterReceive
  split
  · split <;> simp [halDataRead]
  · rfl

@[simp] theorem afterReceive_rspLog (i : Nat) (sr : Byte) (s : State) : (afterReceive i sr s).rspLog = s.rspLog := by
  unfold afterReceive
  split
  · split <;> simp [halDataRead]
  · rfl

theorem afterReceive_halIn (i : Nat) (sr : Byte) (s : State) :
    (afterReceive i sr s).halIn = if srRxne sr then s.takeAnswer.halIn else s.halIn := by
  unfold afterReceive
  split
  · split <;> simp [halDataRead]
  · rfl

theorem afterReceive_draws (i : Nat) (sr : Byte) (s : State) :
    (afterReceive i sr s).draws = if srRxne sr then s.takeAnswer.draws else s.draws := by
  unfold afterReceive
  split
  · split <;> simp [halDataRead]
  · rfl

theorem afterReceive_halLog (i : Nat) (sr : Byte) (s : State) :
    (afterReceive i sr s).halLog = s.halLog ++ if srRxne sr then [.dataRead i s.nextAnswer] else [] := by
  unfold afterReceive
  split
  · split <;> simp [halDataRead]
  · simp

/-- The counters after step 3 (42 R114, R115). -/
theorem afterReceive_cnt (i : Nat) (sr : Byte) (s : State) :
    (afterReceive i sr s).cnt =
      { ore := if srRxne sr && srOre sr then satInc s.cnt.ore else s.cnt.ore,
        ne := if srRxne sr && srNe sr then satInc s.cnt.ne else s.cnt.ne,
        fe := if srRxne sr && srFe sr then satInc s.cnt.fe else s.cnt.fe,
        pe := if srRxne sr && srPe sr then satInc s.cnt.pe else s.cnt.pe,
        txOvr := s.cnt.txOvr,
        rxOvr := if srRxne sr && decide ((s.inst i).rx.cnt = s.rxCap) then satInc s.cnt.rxOvr
          else s.cnt.rxOvr } := by
  unfold afterReceive
  by_cases hx : srRxne sr = true
  · by_cases hc : (s.inst i).rx.cnt = s.rxCap
    · simp [hx, hc, classify_cnt, halDataRead, Counters.bump]
    · simp [hx, hc, classify_cnt, halDataRead]
  · simp [hx]

@[simp] theorem afterTransmit_nInst (i : Nat) (sr : Byte) (s : State) : (afterTransmit i sr s).nInst = s.nInst := by
  unfold afterTransmit halTxeieDisable halDataWrite
  split
  · split <;> simp
  · rfl

@[simp] theorem afterTransmit_rxCap (i : Nat) (sr : Byte) (s : State) : (afterTransmit i sr s).rxCap = s.rxCap := by
  unfold afterTransmit halTxeieDisable halDataWrite
  split
  · split <;> simp
  · rfl

@[simp] theorem afterTransmit_txCap (i : Nat) (sr : Byte) (s : State) : (afterTransmit i sr s).txCap = s.txCap := by
  unfold afterTransmit halTxeieDisable halDataWrite
  split
  · split <;> simp
  · rfl

@[simp] theorem afterTransmit_defaultStream (i : Nat) (sr : Byte) (s : State) :
    (afterTransmit i sr s).defaultStream = s.defaultStream := by
  unfold afterTransmit halTxeieDisable halDataWrite
  split
  · split <;> simp
  · rfl

@[simp] theorem afterTransmit_cnt (i : Nat) (sr : Byte) (s : State) : (afterTransmit i sr s).cnt = s.cnt := by
  unfold afterTransmit halTxeieDisable halDataWrite
  split
  · split <;> simp
  · rfl

@[simp] theorem afterTransmit_inputs (i : Nat) (sr : Byte) (s : State) : (afterTransmit i sr s).inputs = s.inputs := by
  unfold afterTransmit halTxeieDisable halDataWrite
  split
  · split <;> simp
  · rfl

@[simp] theorem afterTransmit_halIn (i : Nat) (sr : Byte) (s : State) : (afterTransmit i sr s).halIn = s.halIn := by
  unfold afterTransmit halTxeieDisable halDataWrite
  split
  · split <;> simp
  · rfl

@[simp] theorem afterTransmit_draws (i : Nat) (sr : Byte) (s : State) : (afterTransmit i sr s).draws = s.draws := by
  unfold afterTransmit halTxeieDisable halDataWrite
  split
  · split <;> simp
  · rfl

@[simp] theorem afterTransmit_rspLog (i : Nat) (sr : Byte) (s : State) : (afterTransmit i sr s).rspLog = s.rspLog := by
  unfold afterTransmit halTxeieDisable halDataWrite
  split
  · split <;> simp
  · rfl

theorem afterTransmit_halLog (i : Nat) (sr : Byte) (s : State) :
    (afterTransmit i sr s).halLog = s.halLog ++
      if srTxe sr then
        if (s.inst i).tx.cnt = 0 then [.txeieDisable i]
        else [.dataWrite i ((s.inst i).tx.buf.byteAt (s.inst i).tx.get)]
      else [] := by
  unfold afterTransmit halTxeieDisable halDataWrite
  split
  · split <;> simp
  · simp

/-- The registry after step 4 (42 R116, R117). -/
theorem afterTransmit_inst {i : Nat} {sr : Byte} {s : State} (hn : i < s.nInst) (j : Nat) :
    (afterTransmit i sr s).inst j =
      if j = i then
        { s.inst i with
          txeie := (s.inst i).txeie && !(srTxe sr && decide ((s.inst i).tx.cnt = 0)),
          tx := if srTxe sr && decide ((s.inst i).tx.cnt ≠ 0) then poppedRing s.txCap (s.inst i).tx else (s.inst i).tx }
      else s.inst j := by
  unfold afterTransmit halTxeieDisable halDataWrite
  cases hx : srTxe sr
  · by_cases hj : j = i <;> simp [hj]
  · by_cases hc : (s.inst i).tx.cnt = 0
    · by_cases hj : j = i <;> simp [hc, hj, inst_setInst, hn]
    · by_cases hj : j = i <;> simp [hc, hj, inst_setInst, hn]

/-- The registry after an event on an active instance: only RX's put side, TX's get side and TXEIE of that instance. -/
theorem irqDone_inst {i : Nat} {s : State} (hn : i < s.nInst) (j : Nat) :
    (irqDone i s).inst j =
      if j = i then
        { s.inst i with
          txeie := (s.inst i).txeie && !(srTxe s.nextAnswer && decide ((s.inst i).tx.cnt = 0)),
          rx := if srRxne s.nextAnswer && decide ((s.inst i).rx.cnt ≠ s.rxCap) then
              pushedRing s.rxCap (s.inst i).rx s.takeAnswer.nextAnswer
            else (s.inst i).rx,
          tx := if srTxe s.nextAnswer && decide ((s.inst i).tx.cnt ≠ 0) then
              poppedRing s.txCap (s.inst i).tx
            else (s.inst i).tx }
      else s.inst j := by
  have hn1 : i < (logHal (.statusRead i s.nextAnswer) s.takeAnswer).nInst := by simpa using hn
  have hn2 : i < (afterReceive i s.nextAnswer (logHal (.statusRead i s.nextAnswer) s.takeAnswer)).nInst := by
    simpa using hn
  unfold irqDone
  rw [afterTransmit_inst hn2, afterReceive_inst hn1, afterReceive_inst hn1]
  by_cases hj : j = i
  · have ha : (logHal (.statusRead i s.nextAnswer) s.takeAnswer).nextAnswer = s.takeAnswer.nextAnswer := rfl
    simp only [hj, true_and, if_true, logHal_inst, takeAnswer_inst, logHal_rxCap, takeAnswer_rxCap, ha]
    by_cases hc : srRxne s.nextAnswer = true ∧ (s.inst i).rx.cnt ≠ s.rxCap
    · simp [hc.1, hc.2]
    · by_cases hx : srRxne s.nextAnswer = true
      · have hf : (s.inst i).rx.cnt = s.rxCap := by
          by_contra h
          exact hc ⟨hx, h⟩
        simp [hx, hf]
      · simp [hx]
  · simp [hj]

/-- HALLOG after an event on an active instance (42 R122). -/
theorem irqDone_halLog {i : Nat} {s : State} (hn : i < s.nInst) :
    (irqDone i s).halLog = s.halLog ++ [.statusRead i s.nextAnswer] ++
      (if srRxne s.nextAnswer then [.dataRead i s.takeAnswer.nextAnswer] else []) ++
      (if srTxe s.nextAnswer then
        if (s.inst i).tx.cnt = 0 then [.txeieDisable i]
        else [.dataWrite i ((s.inst i).tx.buf.byteAt (s.inst i).tx.get)]
      else []) := by
  have hn1 : i < (logHal (.statusRead i s.nextAnswer) s.takeAnswer).nInst := by simpa using hn
  have ha : (logHal (.statusRead i s.nextAnswer) s.takeAnswer).nextAnswer = s.takeAnswer.nextAnswer := rfl
  unfold irqDone
  rw [afterTransmit_halLog, afterReceive_halLog, afterReceive_tx hn1, ha]
  simp

/-- The counters after an event on an active instance (42 R114, R115). -/
theorem irqDone_cnt (i : Nat) (s : State) :
    (irqDone i s).cnt =
      { ore := if srRxne s.nextAnswer && srOre s.nextAnswer then satInc s.cnt.ore else s.cnt.ore,
        ne := if srRxne s.nextAnswer && srNe s.nextAnswer then satInc s.cnt.ne else s.cnt.ne,
        fe := if srRxne s.nextAnswer && srFe s.nextAnswer then satInc s.cnt.fe else s.cnt.fe,
        pe := if srRxne s.nextAnswer && srPe s.nextAnswer then satInc s.cnt.pe else s.cnt.pe,
        txOvr := s.cnt.txOvr,
        rxOvr := if srRxne s.nextAnswer && decide ((s.inst i).rx.cnt = s.rxCap) then satInc s.cnt.rxOvr
          else s.cnt.rxOvr } := by
  unfold irqDone
  rw [afterTransmit_cnt, afterReceive_cnt]
  simp

@[simp] theorem irqDone_rspLog (i : Nat) (s : State) : (irqDone i s).rspLog = s.rspLog := by simp [irqDone]
@[simp] theorem irqDone_inputs (i : Nat) (s : State) : (irqDone i s).inputs = s.inputs := by simp [irqDone]
@[simp] theorem irqDone_rxCap (i : Nat) (s : State) : (irqDone i s).rxCap = s.rxCap := by simp [irqDone]
@[simp] theorem irqDone_txCap (i : Nat) (s : State) : (irqDone i s).txCap = s.txCap := by simp [irqDone]
@[simp] theorem irqDone_nInst (i : Nat) (s : State) : (irqDone i s).nInst = s.nInst := by simp [irqDone]
@[simp] theorem irqDone_defaultStream (i : Nat) (s : State) : (irqDone i s).defaultStream = s.defaultStream := by
  simp [irqDone]

/-- An answer taken after another list of transactions is the same one. -/
theorem takeAnswer_logHal (t : HalTx) (s : State) : (logHal t s).takeAnswer = logHal t s.takeAnswer := by
  unfold State.takeAnswer logHal
  cases s.halIn <;> rfl

theorem irqDone_halIn (i : Nat) (s : State) :
    (irqDone i s).halIn = if srRxne s.nextAnswer then s.takeAnswer.takeAnswer.halIn else s.takeAnswer.halIn := by
  simp [irqDone, afterReceive_halIn, takeAnswer_logHal]

theorem irqDone_draws (i : Nat) (s : State) :
    (irqDone i s).draws = if srRxne s.nextAnswer then s.takeAnswer.takeAnswer.draws else s.takeAnswer.draws := by
  simp [irqDone, afterReceive_draws, takeAnswer_logHal]

/-- The answers one event takes from the list: its status word, its data when it has RXNE, and no more. -/
theorem eventAnswers_taken {c : State} {sr dr : Byte} {more : List Byte} (h : c.halIn = eventAnswers sr dr ++ more)
    (i : Nat) :
    c.nextAnswer = sr ∧ (srRxne sr = true → c.takeAnswer.nextAnswer = dr) ∧ (irqDone i c).halIn = more := by
  rw [irqDone_halIn]
  cases hx : srRxne sr
  · simp only [eventAnswers, hx] at h
    have hs : c.nextAnswer = sr := by simp [State.nextAnswer, h]
    exact ⟨hs, by simp, by simp [hs, hx, State.takeAnswer, h]⟩
  · simp only [eventAnswers, hx] at h
    have hs : c.nextAnswer = sr := by simp [State.nextAnswer, h]
    exact ⟨hs, by simp [State.takeAnswer, h, State.nextAnswer], by simp [hs, hx, State.takeAnswer, h]⟩

end Sys2Proof.Machine
end

