-- ==== Sys2Proof/Laws/Exec.lean ====
section
/-! SUPPORT. What one operation can do, said once: `exec_cases` is the inversion lemma of `exec`, in every state, and
`PutcEffect` the fields PUTC leaves on an active instance. -/

namespace Sys2Proof.Machine

/-! ### PUTC's enable -/

@[simp] theorem enableIfWasEmpty_cnt (w : Bool) (i : Nat) (s : State) :
    (enableIfWasEmpty w i s).cnt = s.cnt := by
  unfold enableIfWasEmpty; split <;> simp [halTxeieEnable]

@[simp] theorem enableIfWasEmpty_rspLog (w : Bool) (i : Nat) (s : State) :
    (enableIfWasEmpty w i s).rspLog = s.rspLog := by
  unfold enableIfWasEmpty; split <;> simp [halTxeieEnable]

@[simp] theorem enableIfWasEmpty_inputs (w : Bool) (i : Nat) (s : State) :
    (enableIfWasEmpty w i s).inputs = s.inputs := by
  unfold enableIfWasEmpty; split <;> simp [halTxeieEnable]

@[simp] theorem enableIfWasEmpty_halIn (w : Bool) (i : Nat) (s : State) :
    (enableIfWasEmpty w i s).halIn = s.halIn := by
  unfold enableIfWasEmpty; split <;> simp [halTxeieEnable]

@[simp] theorem enableIfWasEmpty_draws (w : Bool) (i : Nat) (s : State) :
    (enableIfWasEmpty w i s).draws = s.draws := by
  unfold enableIfWasEmpty; split <;> simp [halTxeieEnable]

@[simp] theorem enableIfWasEmpty_nInst (w : Bool) (i : Nat) (s : State) :
    (enableIfWasEmpty w i s).nInst = s.nInst := by
  unfold enableIfWasEmpty; split <;> simp [halTxeieEnable]

@[simp] theorem enableIfWasEmpty_rxCap (w : Bool) (i : Nat) (s : State) :
    (enableIfWasEmpty w i s).rxCap = s.rxCap := by
  unfold enableIfWasEmpty; split <;> simp [halTxeieEnable]

@[simp] theorem enableIfWasEmpty_txCap (w : Bool) (i : Nat) (s : State) :
    (enableIfWasEmpty w i s).txCap = s.txCap := by
  unfold enableIfWasEmpty; split <;> simp [halTxeieEnable]

@[simp] theorem enableIfWasEmpty_defaultStream (w : Bool) (i : Nat) (s : State) :
    (enableIfWasEmpty w i s).defaultStream = s.defaultStream := by
  unfold enableIfWasEmpty; split <;> simp [halTxeieEnable]

theorem enableIfWasEmpty_halLog (w : Bool) (i : Nat) (s : State) :
    (enableIfWasEmpty w i s).halLog = s.halLog ++ if w then [.txeieEnable i] else [] := by
  unfold enableIfWasEmpty; split <;> simp [halTxeieEnable]

theorem enableIfWasEmpty_inst {w : Bool} {i : Nat} {s : State} (hn : i < s.nInst) (j : Nat) :
    (enableIfWasEmpty w i s).inst j =
      if j = i then { s.inst i with txeie := (s.inst i).txeie || w } else s.inst j := by
  unfold enableIfWasEmpty
  cases w
  · by_cases h : j = i <;> simp [h]
  · simp [halTxeieEnable, inst_setInst, hn]

/-! ### PUTC on an active instance -/

/-- What PUTC's pushes do to the transmit ring, and whether they succeeded (43 R130, R131). -/
def PutcRing (cap : Nat) (c : Inst) (b : Byte) (ok : Bool) (r : Ring) : Prop :=
  (ok = true ∧ translates c b = false ∧ c.tx.cnt ≠ cap ∧ r = pushedRing cap c.tx b) ∨
  (ok = true ∧ translates c b = true ∧ c.tx.cnt ≠ cap ∧ c.tx.cnt + 1 ≠ cap ∧
    r = pushedRing cap (pushedRing cap c.tx carriageReturn) b) ∨
  (ok = false ∧ translates c b = true ∧ c.tx.cnt ≠ cap ∧ c.tx.cnt + 1 = cap ∧
    r = pushedRing cap c.tx carriageReturn) ∨
  (ok = false ∧ c.tx.cnt = cap ∧ r = c.tx)

/-- Every field PUTC leaves on an active instance (43 R130). -/
structure PutcEffect (i : Nat) (b : Byte) (s t : State) (ok : Bool) (r : Ring) : Prop where
  inst : ∀ j, t.inst j = if j = i then
      { s.inst i with tx := r, txeie := (s.inst i).txeie || ((s.inst i).tx.cnt == 0) }
    else s.inst j
  cnt : t.cnt = if ok then s.cnt else s.cnt.bump .txOvr
  rspLog : t.rspLog = s.rspLog ++ [⟨if ok then .ok else .overrun, 0⟩]
  halLog : t.halLog = s.halLog ++ if (s.inst i).tx.cnt == 0 then [.txeieEnable i] else []
  params : t.params = s.params
  inputs : t.inputs = s.inputs
  halIn : t.halIn = s.halIn
  draws : t.draws = s.draws
  ring : PutcRing s.txCap (s.inst i) b ok r

theorem execPutc_active {i : Nat} {b : Byte} {s t : State} (ha : (s.inst i).active = true)
    (h : execPutc i b s = .next t) : ∃ ok r, PutcEffect i b s t ok r := by
  have hn := lt_of_active ha
  simp only [execPutc, onActive_active _ hn ha] at h
  obtain ⟨ok, s1, hp, rfl⟩ := putcActive_cases h
  have mk : ∀ r : Ring, (∀ j, s1.inst j = if j = i then { s.inst i with tx := r } else s.inst j) →
      s1.nInst = s.nInst → s1.cnt = (if ok then s.cnt else s.cnt.bump .txOvr) → s1.rspLog = s.rspLog →
      s1.halLog = s.halLog → s1.params = s.params → s1.inputs = s.inputs → s1.halIn = s.halIn →
      s1.draws = s.draws → PutcRing s.txCap (s.inst i) b ok r →
      ∃ ok' r, PutcEffect i b s
        (respond ⟨if ok then .ok else .overrun, 0⟩ (enableIfWasEmpty ((s.inst i).tx.cnt == 0) i s1)) ok' r := by
    intro r e1 e2 e3 e4 e5 e6 e7 e8 e9 e10
    refine ⟨ok, r, ⟨fun j => ?_, by simp [e3], by simp [e4], by simp [enableIfWasEmpty_halLog, e5], ?_,
      by simp [e7], by simp [e8], by simp [e9], e10⟩⟩
    · rw [respond_inst, enableIfWasEmpty_inst (by rw [e2]; exact hn), e1, e1]
      by_cases hj : j = i <;> simp [hj]
    · rw [← e6]; simp [State.params]
  obtain ⟨rfl, h1, h2, rfl⟩ | ⟨rfl, h1, h2, h3, rfl⟩ | ⟨rfl, h1, h2, h3, rfl⟩ | ⟨rfl, h1, rfl⟩ :=
    putcPushes_cases hn hp
  · refine mk _ (fun j => inst_setInst s i j _ hn) ?_ rfl rfl rfl ?_ rfl rfl rfl (.inl ⟨rfl, h1, h2, rfl⟩) <;>
      simp [txPushed, State.params]
  · refine mk (pushedRing s.txCap (pushedRing s.txCap (s.inst i).tx carriageReturn) b) (fun j => ?_) ?_
      rfl rfl rfl ?_ rfl rfl rfl (.inr (.inl ⟨rfl, h1, h2, h3, rfl⟩)) <;>
      simp [txPushed, hn, inst_setInst, State.params]
  · refine mk _ (fun j => inst_setInst s i j _ hn) ?_ rfl rfl rfl ?_ rfl rfl rfl
      (.inr (.inr (.inl ⟨rfl, h1, h2, h3, rfl⟩))) <;>
      simp [txPushed, State.params]
  · refine mk (s.inst i).tx (fun j => ?_) ?_ rfl rfl rfl ?_ rfl rfl rfl (.inr (.inr (.inr ⟨rfl, h1, rfl⟩)))
    · by_cases hj : j = i <;> simp [hj]
    · simp
    · simp [State.params]

/-- START, PUTC and GETC on an instance that is not active (60 R152, R155). -/
theorem exec_inactive {i : Nat} {b : Byte} {s t : State} (ha : (s.inst i).active = false) {ins : Instr}
    (hi : ins = .start i ∨ ins = .putc i b ∨ ins = .getc i) (h : exec ins s = .next t) :
    t = respond ⟨if i < s.nInst then .badInstance else .invalidArgument, 0⟩ s := by
  by_cases hn : i < s.nInst
  · obtain rfl | rfl | rfl := hi <;>
      simp [exec, execPutc, execGetc, execStart, onActive, Nat.not_le.mpr hn, ha, raiseError] at h <;> simp [hn, h]
  · obtain rfl | rfl | rfl := hi <;>
      simp [exec, execPutc, execGetc, execStart, onActive, Nat.le_of_not_lt hn, raiseError] at h <;> simp [hn, h]

/-! ### The registry after INIT, START and the inactive guard -/

theorem initDone_inst {i : Nat} {cs crnl : Bool} {s : State} (hn : i < s.nInst) (j : Nat) :
    (initDone i cs crnl s).inst j =
      if j = i then
        { active := true, cfgCs := cs, cfgCrnl := crnl, streamPub := false, lineEn := false, rxie := false,
          txeie := false, rx := clearedRing s.rxCap (s.inst i).rx, tx := clearedRing s.txCap (s.inst i).tx }
      else s.inst j :=
  inst_setInst s i j _ hn

theorem startDone_inst {i : Nat} {s : State} (hn : i < s.nInst) (j : Nat) :
    (startDone i s).inst j =
      if j = i then
        { s.inst i with
          rxie := true, lineEn := true, streamPub := (s.inst i).streamPub || (s.inst i).cfgCs }
      else s.inst j :=
  inst_setInst s i j _ hn

theorem halLineDisable_inst {i : Nat} {s : State} (hn : i < s.nInst) (j : Nat) :
    (halLineDisable i s).inst j = if j = i then { s.inst i with lineEn := false } else s.inst j :=
  inst_setInst s i j _ hn

/-- Two states with equal entries hold equal registries. -/
theorem insts_ext {s t : State} (hn : t.nInst = s.nInst) (h : ∀ j, t.inst j = s.inst j) : t.insts = s.insts := by
  apply List.ext_getElem hn
  intro j h1 h2
  have := h j
  rwa [inst_eq_getElem _ _ h1, inst_eq_getElem _ _ h2] at this

/-! ### Observations -/

theorem wire_append (i : Nat) (a b : List HalTx) : wire i (a ++ b) = wire i a ++ wire i b := by simp [wire]

theorem dataReads_append (i : Nat) (a b : List HalTx) : dataReads i (a ++ b) = dataReads i a ++ dataReads i b := by
  simp [dataReads]

/-- When PUTC queues a carriage return first (43 R131). -/
theorem translates_iff (c : Inst) (b : Byte) : translates c b = true ↔ c.cfgCrnl = true ∧ b = 0x0A := by
  simp [translates, lineFeed]

/-- The registry right after reset (70 R181). -/
theorem resetWith_inst (p : Params) (d : Nat → ResetDraw) {i : Nat} (h : i < p.nInst) :
    (State.resetWith p d).inst i = Inst.reset (d i) := by
  simp [State.resetWith, State.inst, h]

@[simp] theorem resetWith_nInst (p : Params) (d : Nat → ResetDraw) : (State.resetWith p d).nInst = p.nInst := by
  simp [State.resetWith, State.nInst]

/-! ### Every operation -/

/-- The answer of a command that does nothing but answer: GDC, STAT, CNTRD, and every command that ends in an error with
no effect (60 R152, R154). -/
def onlyAnswer (ins : Instr) (s : State) : Option Rsp :=
  match ins with
  | .gdc => some ⟨.ok, defaultConfigVal⟩
  | .init i _ _ =>
    if s.nInst ≤ i then some ⟨.invalidArgument, 0⟩
    else if (s.inst i).active then some ⟨.invalidState, 0⟩
    else none
  | .start i =>
    if s.nInst ≤ i then some ⟨.invalidArgument, 0⟩
    else if (s.inst i).active then none
    else some ⟨.badInstance, 0⟩
  | .putc i _ =>
    if s.nInst ≤ i then some ⟨.invalidArgument, 0⟩
    else if (s.inst i).active then none
    else some ⟨.badInstance, 0⟩
  | .getc i =>
    if s.nInst ≤ i then some ⟨.invalidArgument, 0⟩
    else if (s.inst i).active then (if (s.inst i).rx.cnt = 0 then some ⟨.overrun, 0⟩ else none)
    else some ⟨.badInstance, 0⟩
  | .stat i sel =>
    if s.nInst ≤ i ∨ sel = .illegal then some ⟨.invalidArgument, 0⟩
    else if (s.inst i).active then some ⟨.ok, statVal s i sel⟩
    else some ⟨.ok, 0⟩
  | .cntrd k =>
    match counterOf k with
    | none => some ⟨.invalidArgument, 0⟩
    | some c => some ⟨.ok, s.cnt.get c⟩
  | .cntrst => none
  | .irq _ => none

/-- An error answers the value 0 (30 R64). -/
theorem onlyAnswer_val {ins : Instr} {s : State} {r : Rsp} (h : onlyAnswer ins s = some r) (he : r.err ≠ .ok) :
    r.val = 0 := by
  unfold onlyAnswer at h
  repeat' split at h
  all_goals simp only [Option.some.injEq, reduceCtorEq] at h
  all_goals subst h
  all_goals first | rfl | exact absurd rfl he

theorem onlyAnswer_ne_irq {ins : Instr} {s : State} {r : Rsp} (h : onlyAnswer ins s = some r) (i : Nat) :
    ins ≠ .irq i := by
  rintro rfl
  cases h

/-- Everything `exec` can do without a fault: a command that only answers; INIT, START, PUTC, GETC that succeed in part
or whole; CNTRST; the three cases of IRQ. -/
theorem exec_cases {ins : Instr} {s t : State} (h : exec ins s = .next t) :
    (∃ r : Rsp, onlyAnswer ins s = some r ∧ t = respond r s) ∨
    (∃ i cs crnl, ins = .init i cs crnl ∧ i < s.nInst ∧ (s.inst i).active = false ∧
      t = respond ⟨.ok, 0⟩ (initDone i cs crnl s)) ∨
    (∃ i, ins = .start i ∧ i < s.nInst ∧ (s.inst i).active = true ∧ t = respond ⟨.ok, 0⟩ (startDone i s)) ∨
    (∃ i b ok r, ins = .putc i b ∧ i < s.nInst ∧ (s.inst i).active = true ∧ PutcEffect i b s t ok r) ∨
    (∃ i, ins = .getc i ∧ i < s.nInst ∧ (s.inst i).active = true ∧ (s.inst i).rx.cnt ≠ 0 ∧
      t = respond ⟨.ok, zextByte ((s.inst i).rx.buf.byteAt (s.inst i).rx.get)⟩
        (s.setInst i { s.inst i with rx := poppedRing s.rxCap (s.inst i).rx })) ∨
    (ins = .cntrst ∧ t = respond ⟨.ok, 0⟩ { s with cnt := Counters.zero }) ∨
    (∃ i, ins = .irq i ∧ s.nInst ≤ i ∧ t = s) ∨
    (∃ i, ins = .irq i ∧ i < s.nInst ∧ (s.inst i).active = false ∧ t = halLineDisable i s) ∨
    (∃ i, ins = .irq i ∧ i < s.nInst ∧ (s.inst i).active = true ∧ t = irqDone i s) := by
  cases ins with
  | gdc => left; cases h; exact ⟨_, rfl, rfl⟩
  | init i cs crnl =>
    obtain ⟨hn, e⟩ | ⟨hn, ha, e⟩ | ⟨hn, ha, e⟩ := execInit_cases i cs crnl s <;>
      simp only [exec, e] at h <;> rw [← next_inj h]
    · left; exact ⟨_, by simp [onlyAnswer, hn], rfl⟩
    · left; exact ⟨_, by simp [onlyAnswer, Nat.not_le.mpr hn, ha], rfl⟩
    · right; left; exact ⟨i, cs, crnl, rfl, hn, ha, rfl⟩
  | start i =>
    obtain ⟨hn, e⟩ | ⟨hn, ha, e⟩ | ⟨hn, ha, e⟩ := execStart_cases i s <;>
      simp only [exec, e] at h <;> rw [← next_inj h]
    · left; exact ⟨_, by simp [onlyAnswer, hn], rfl⟩
    · left; exact ⟨_, by simp [onlyAnswer, Nat.not_le.mpr hn, ha], rfl⟩
    · right; right; left; exact ⟨i, rfl, hn, ha, rfl⟩
  | putc i b =>
    cases ha : (s.inst i).active
    · left
      refine ⟨_, ?_, exec_inactive ha (.inr (.inl rfl)) h⟩
      by_cases hn : s.nInst ≤ i
      · simp [onlyAnswer, hn, Nat.not_lt.mpr hn]
      · simp [onlyAnswer, hn, ha, Nat.lt_of_not_le hn]
    · obtain ⟨ok, r, e⟩ := execPutc_active ha h
      right; right; right; left; exact ⟨i, b, ok, r, rfl, lt_of_active ha, ha, e⟩
  | getc i =>
    cases ha : (s.inst i).active
    · left
      refine ⟨_, ?_, exec_inactive (b := 0) ha (.inr (.inr rfl)) h⟩
      by_cases hn : s.nInst ≤ i
      · simp [onlyAnswer, hn, Nat.not_lt.mpr hn]
      · simp [onlyAnswer, hn, ha, Nat.lt_of_not_le hn]
    · have hn := lt_of_active ha
      simp only [exec, execGetc, onActive_active _ hn ha] at h
      obtain ⟨hc, rfl⟩ | ⟨hc, rfl⟩ := getcActive_cases h
      · left; exact ⟨_, by simp [onlyAnswer, Nat.not_le.mpr hn, ha, hc], rfl⟩
      · right; right; right; right; left; exact ⟨i, rfl, hn, ha, hc, rfl⟩
  | stat i sel =>
    left
    obtain ⟨hn, e⟩ | ⟨hn, hs, ha, e⟩ | ⟨hn, hs, ha, e⟩ := execStat_cases i sel s <;>
      simp only [exec, e] at h <;> rw [← next_inj h]
    · exact ⟨_, by simp [onlyAnswer, hn], rfl⟩
    · exact ⟨_, by simp [onlyAnswer, Nat.not_le.mpr hn, hs, ha], rfl⟩
    · exact ⟨_, by simp [onlyAnswer, Nat.not_le.mpr hn, hs, ha], rfl⟩
  | cntrd k =>
    left
    obtain ⟨-, hk, e⟩ | ⟨-, c, hk, e⟩ := execCntrd_cases k s <;>
      simp only [exec, e] at h <;> rw [← next_inj h] <;> exact ⟨_, by simp [onlyAnswer, hk], rfl⟩
  | cntrst => cases h; right; right; right; right; right; left; exact ⟨rfl, rfl⟩
  | irq i =>
    obtain ⟨hn, rfl⟩ | ⟨hn, ha, rfl⟩ | ⟨hn, ha, rfl⟩ := execIrq_cases h
    · iterate 6 right
      left; exact ⟨i, rfl, hn, rfl⟩
    · iterate 7 right
      left; exact ⟨i, rfl, hn, ha, rfl⟩
    · iterate 8 right
      exact ⟨i, rfl, hn, ha, rfl⟩

/-- A command that only answers, the other way round. -/
theorem exec_onlyAnswer {ins : Instr} {s : State} {r : Rsp} (h : onlyAnswer ins s = some r) :
    exec ins s = .next (respond r s) := by
  unfold onlyAnswer at h
  cases ins <;> simp only at h
  · cases h; rfl
  all_goals
    simp only [exec, execInit, execStart, execPutc, execGetc, execStat, execCntrd, onActive, raiseError, answerOk,
      getcActive, tryPop, ringPop]
    repeat' split at h
    all_goals simp only [Option.some.injEq, reduceCtorEq] at h
    all_goals subst h
    all_goals simp_all
  next hn => rintro h1 h2; exact absurd hn (by simp [Nat.not_le.mpr h1, h2])

end Sys2Proof.Machine
end

