-- ==== Sys2Proof/Laws/PerInstr.lean ====
section
/-! SUPPORT. Statements made once per operation. Family `Opcode`: the canonical word of every well-formed operation
carries the operation code of its row of 30 R62 in bits 15:12, or is an event word. -/

namespace Sys2Proof.Laws

/-- The `op` of an operation's row (30 R62); IRQ has none, it arrives on the event port. -/
def Opcode.number : Instr → Option Nat
  | .gdc => some 1
  | .init _ _ _ => some 2
  | .start _ => some 3
  | .putc _ _ => some 4
  | .getc _ => some 5
  | .stat _ _ => some 6
  | .cntrd _ => some 7
  | .cntrst => some 8
  | .irq _ => none

/-- What a port word must show of an operation code. -/
def Opcode.shown : PortWord → Option Nat → Prop
  | .cmd w, some n => opField w = n
  | .evt _, none => True
  | .cmd _, none => False
  | .evt _, some _ => False

/-- The canonical word of a well-formed operation shows its operation code. -/
def Opcode.Statement (i : Instr) : Prop := i.wf = true → Opcode.shown (encode i) (Opcode.number i)

theorem Opcode.gdc : Opcode.Statement .gdc := fun _ => opField_commandWord 0 (by decide) (by decide)

theorem Opcode.init (i : Nat) (cs crnl : Bool) : Opcode.Statement (.init i cs crnl) :=
  fun h => opField_commandWord _ (by decide) (of_decide_eq_true h)

theorem Opcode.start (i : Nat) : Opcode.Statement (.start i) :=
  fun h => opField_commandWord 0 (by decide) (of_decide_eq_true h)

theorem Opcode.putc (i : Nat) (b : Byte) : Opcode.Statement (.putc i b) :=
  fun h => opField_commandWord b (by decide) (of_decide_eq_true h)

theorem Opcode.getc (i : Nat) : Opcode.Statement (.getc i) :=
  fun h => opField_commandWord 0 (by decide) (of_decide_eq_true h)

theorem Opcode.stat (i : Nat) (sel : StatSel) : Opcode.Statement (.stat i sel) :=
  fun h => opField_commandWord _ (by decide) (of_decide_eq_true h)

theorem Opcode.cntrd (k : Nat) : Opcode.Statement (.cntrd k) :=
  fun _ => opField_commandWord _ (by decide) (by decide)

theorem Opcode.cntrst : Opcode.Statement .cntrst := fun _ => opField_commandWord 0 (by decide) (by decide)

theorem Opcode.irq (i : Nat) : Opcode.Statement (.irq i) := fun _ => trivial

end Sys2Proof.Laws
end

