-- ==== Sys2Proof/Tests/Slice0.lean ====
section
/-! SUPPORT. Tests and witnesses. The expected values are those of spec/95 (named V1 to V70 there) or of the rule named;
the witnesses show states that meet the hypotheses of the statements. -/

namespace Sys2Proof.Tests

open Sys2Proof Sys2Proof.Machine

/-! ### Small states (CFG_T: RX_CAP = 4, TX_CAP = 8) -/

/-- An array from its bytes, index 0 first. -/
def bytes (bs : List Byte) : Memory :=
  ((List.range bs.length).zip bs).filter (fun c => c.2 != 0)

/-- An inert entry, its unspecified registers drawn so that they show. -/
def inert : Inst := Inst.reset ⟨true, true, true, true, true, ⟨3, 1, 2, bytes [7]⟩, ⟨5, 5, 8, bytes [9]⟩⟩

/-- A started entry. -/
def up (cs crnl txeie : Bool) (rx tx : Ring) : Inst :=
  { active := true, cfgCs := cs, cfgCrnl := crnl, streamPub := cs, lineEn := true, rxie := true, txeie := txeie,
    rx := rx, tx := tx }

/-- Two entries. -/
def two (a b : Inst) : State :=
  { rxCap := 4, txCap := 8, defaultStream := none, insts := [a, b], cnt := Counters.zero, inputs := [], halIn := [],
    draws := 0, halLog := [], rspLog := [] }

/-- The state a result goes on in. -/
def after (r : Result) : Option State :=
  match r with
  | .next t => some t
  | .fault _ => none
  | .refused _ => none

/-- The last response of a result. -/
def answer (r : Result) : Option Rsp := (after r).bind (fun t => t.rspLog.getLast?)

/-- The entry of one number in a result. -/
def entry (i : Nat) (r : Result) : Option Inst := (after r).map (fun t => t.inst i)

/-- HALLOG of a result. -/
def hal (r : Result) : Option (List HalTx) := (after r).map (fun t => t.halLog)

/-- The counters of a result. -/
def counters (r : Result) : Option Counters := (after r).map (fun t => t.cnt)

/-- Ring ranges, form and link as a test. -/
def ringOk (cap : Nat) (r : Ring) : Bool :=
  decide (r.get < cap) && decide (r.put < cap) && decide (r.cnt ≤ cap) && r.buf.wf && r.buf.within cap

/-- What holds of an entry, as a test. -/
def instOk (rxCap txCap : Nat) (c : Inst) : Bool :=
  ringOk rxCap c.rx && ringOk txCap c.tx &&
    (!c.active || (decide (c.rx.put = (c.rx.get + c.rx.cnt) % rxCap) && decide (c.tx.put = (c.tx.get + c.tx.cnt) % txCap) &&
      (decide (c.tx.cnt = 0) || c.txeie) && (c.rxie == c.lineEn))) &&
    (c.streamPub == (c.active && c.cfgCs && c.lineEn))

/-- The invariant as a test. -/
def invOk (s : State) : Bool := s.params.ok && s.insts.all (instOk s.rxCap s.txCap)

theorem ringInv_of_ok {cap : Nat} {r : Ring} (h : ringOk cap r = true) : RingInv cap r := by
  simp only [ringOk, Bool.and_eq_true, decide_eq_true_eq] at h
  exact ⟨h.1.1.1.1, h.1.1.1.2, h.1.1.2, h.1.2, h.2⟩

theorem inv_of_ok {s : State} (h : invOk s = true) : Inv s := by
  simp only [invOk, Bool.and_eq_true, List.all_eq_true] at h
  refine ⟨h.1, fun i hi => ?_⟩
  have hc := h.2 (s.inst i) (by rw [inst_eq_getElem s i hi]; exact List.getElem_mem hi)
  simp only [instOk, Bool.and_eq_true, Bool.or_eq_true, decide_eq_true_eq, Bool.not_eq_true', beq_iff_eq] at hc
  obtain ⟨⟨⟨hr, ht⟩, ha⟩, hp⟩ := hc
  have act : (s.inst i).active = true → _ := fun e => ha.resolve_left (by simp [e])
  exact ⟨ringInv_of_ok hr, ringInv_of_ok ht, fun e => (act e).1.1.1, fun e => (act e).1.1.2,
    fun e hc => (act e).1.2.resolve_left (by omega), fun e => (act e).2, hp⟩

/-- Both entries started; entry 1 as 95 part 2.4 starts every row. -/
def rowStart : State :=
  two (up true false false Ring.zero Ring.zero) (up true true true Ring.zero ⟨0, 1, 1, bytes [0x41]⟩)

theorem rowStart_inv : Inv rowStart := inv_of_ok (by decide)

/-- Entry 0 inert, entry 1 started. -/
def half : State := two inert (up true true false Ring.zero Ring.zero)

theorem half_inv : Inv half := inv_of_ok (by decide)

/-- Entry 0 started with translation as given and its transmit ring as given; entry 1 inert. -/
def txState (crnl : Bool) (tx : Ring) : State := two (up false crnl true Ring.zero tx) inert

/-- Six bytes queued from index 3 (V45). -/
def tx6 : Ring := ⟨3, 1, 6, bytes [6, 0, 0, 1, 2, 3, 4, 5]⟩

/-- Seven bytes queued from index 3 (V46). -/
def tx7 : Ring := ⟨3, 2, 7, bytes [6, 7, 0, 1, 2, 3, 4, 5]⟩

/-- Eight bytes queued from index 3 (V47). -/
def tx8 : Ring := ⟨3, 3, 8, bytes [6, 7, 8, 1, 2, 3, 4, 5]⟩

/-- Four received bytes, a full buffer (V36). -/
def rx4 : Ring := ⟨0, 0, 4, bytes [0x11, 0x22, 0x33, 0x44]⟩

theorem txState_inv : Inv (txState true Ring.zero) ∧ Inv (txState false Ring.zero) ∧ Inv (txState true tx6) ∧
    Inv (txState true tx7) ∧ Inv (txState true tx8) ∧ Inv (txState false tx7) :=
  ⟨inv_of_ok (by decide), inv_of_ok (by decide), inv_of_ok (by decide), inv_of_ok (by decide), inv_of_ok (by decide),
    inv_of_ok (by decide)⟩

/-! ### Decoding: every operation's word, bit by bit from 30 R61, R62, R66 to R69, R71 (95 part 2.1) -/

theorem test_decode_gdc : decode (.cmd 0b0001_0000_00000000) = .ok .gdc := by rfl
theorem test_decode_init : decode (.cmd 0b0010_0001_00000010) = .ok (.init 1 false true) := by rfl
theorem test_decode_start : decode (.cmd 0b0011_0001_00000000) = .ok (.start 1) := by rfl
theorem test_decode_putc : decode (.cmd 0b0100_0001_00001010) = .ok (.putc 1 0x0A) := by rfl
theorem test_decode_getc : decode (.cmd 0b0101_0001_00000000) = .ok (.getc 1) := by rfl
theorem test_decode_stat : decode (.cmd 0b0110_0001_00000110) = .ok (.stat 1 .txCount) := by rfl
theorem test_decode_stat_rx : decode (.cmd 0b0110_1111_00000001) = .ok (.stat 15 .rxCount) := by rfl
theorem test_decode_cntrd : decode (.cmd 0b0111_0000_11111101) = .ok (.cntrd 5) := by rfl
theorem test_decode_cntrst : decode (.cmd 0b1000_1010_10111100) = .ok .cntrst := by rfl
theorem test_decode_irq : decode (.evt 0b0111) = .ok (.irq 7) := by rfl
theorem test_decode_reserved : decode (.cmd 0x0000) = .error (.reservedOpcode 0) ∧
    decode (.cmd 0x9000) = .error (.reservedOpcode 9) ∧ decode (.cmd 0xF123) = .error (.reservedOpcode 15) :=
  ⟨rfl, rfl, rfl⟩

/-- The canonical words of spec/opcode_table.json. -/
theorem test_encode : encode .gdc = .cmd 0x1000 ∧ encode (.init 0 true true) = .cmd 0x2003 ∧
    encode (.start 1) = .cmd 0x3100 ∧ encode (.putc 0 0x41) = .cmd 0x4041 ∧ encode (.getc 1) = .cmd 0x5100 ∧
    encode (.stat 0 .txCount) = .cmd 0x6002 ∧ encode (.cntrd 5) = .cmd 0x7005 ∧ encode .cntrst = .cmd 0x8000 ∧
    encode (.irq 1) = .evt 1 := by decide

/-- The response words of 95 part 2.1. -/
theorem test_response_words : Rsp.word ⟨.ok, 0x0003⟩ = 0x00003 ∧ Rsp.word ⟨.badInstance, 0⟩ = 0x30000 ∧
    Rsp.word ⟨.overrun, 0⟩ = 0x40000 ∧ Rsp.word ⟨.invalidArgument, 0⟩ = 0x10000 ∧
    Rsp.word ⟨.invalidState, 0⟩ = 0x20000 ∧ Rsp.word ⟨.ok, 0xFFFF⟩ = 0x0FFFF := by decide

/-- 30 R76's pseudo-operations. -/
theorem test_pseudo : PseudoOp.expand (.puts 0 [0x61, 0x62]) = [.putc 0 0x61, .putc 0 0x62] ∧
    PseudoOp.expand (.drain 0 2) = [.irq 0, .irq 0] ∧ PseudoOp.answers (.drain 0 2) = [0x80, 0x80] ∧
    PseudoOp.expand (.srd 1) = [.getc 1] := by decide

/-! ### WellFormed: one ill-formed term a check -/

theorem test_wf_refuses_inst : Instr.wf (.putc 16 0) = false ∧ Instr.wf (.init 16 true true) = false ∧
    Instr.wf (.start 16) = false ∧ Instr.wf (.getc 16) = false ∧ Instr.wf (.stat 16 .flags) = false ∧
    Instr.wf (.irq 16) = false := by decide
theorem test_wf_refuses_counter : Instr.wf (.cntrd 8) = false := by decide

/-! ### The operations -/

/-- V1. -/
theorem test_gdc : answer (exec .gdc half) = some ⟨.ok, 0x0003⟩ := by decide

/-- V2. -/
theorem test_init : entry 0 (exec (.init 0 false true) half) = some
      { active := true, cfgCs := false, cfgCrnl := true, streamPub := false, lineEn := false, rxie := false,
        txeie := false, rx := ⟨0, 0, 0, []⟩, tx := ⟨0, 0, 0, []⟩ } ∧
    hal (exec (.init 0 false true) half) = some [.lineDisable 0, .rxieDisable 0, .txeieDisable 0] := by decide

/-- V3, V4. -/
theorem test_init_refused : answer (exec (.init 1 true false) half) = some ⟨.invalidState, 0⟩ ∧
    entry 1 (exec (.init 1 true false) half) = some (half.inst 1) ∧
    answer (exec (.init 2 true true) half) = some ⟨.invalidArgument, 0⟩ := by decide

/-- V5, with `cs` = 1 (V65): after INIT 0, START 0. -/
theorem test_start : entry 0 (execAll [.init 0 true false, .start 0] half) = some
      { active := true, cfgCs := true, cfgCrnl := false, streamPub := true, lineEn := true, rxie := true,
        txeie := false, rx := ⟨0, 0, 0, []⟩, tx := ⟨0, 0, 0, []⟩ } ∧
    answer (execAll [.init 0 true false, .start 0, .stat 0 .flags] half) = some ⟨.ok, 0x000B⟩ := by decide

/-- V7, V8. -/
theorem test_start_refused : answer (exec (.start 0) half) = some ⟨.badInstance, 0⟩ ∧
    hal (exec (.start 0) half) = some [] ∧ answer (exec (.start 9) half) = some ⟨.invalidArgument, 0⟩ := by decide

/-- V45. -/
theorem test_putc_pair : entry 0 (exec (.putc 0 0x0A) (txState true tx6)) = some
      (up false true true Ring.zero ⟨3, 3, 8, bytes [6, 0x0D, 0x0A, 1, 2, 3, 4, 5]⟩) ∧
    answer (exec (.putc 0 0x0A) (txState true tx6)) = some ⟨.ok, 0⟩ := by decide

/-- V46. -/
theorem test_putc_orphan : entry 0 (exec (.putc 0 0x0A) (txState true tx7)) = some
      (up false true true Ring.zero ⟨3, 3, 8, bytes [6, 7, 0x0D, 1, 2, 3, 4, 5]⟩) ∧
    answer (exec (.putc 0 0x0A) (txState true tx7)) = some ⟨.overrun, 0⟩ ∧
    counters (exec (.putc 0 0x0A) (txState true tx7)) = some ⟨0, 0, 0, 0, 1, 0⟩ := by decide

/-- V53. -/
theorem test_getc : answer (exec (.getc 1) (two inert (up true true false ⟨3, 1, 2, bytes [0x62, 0, 0, 0x61]⟩ Ring.zero))) =
      some ⟨.ok, 0x0061⟩ ∧
    entry 1 (exec (.getc 1) (two inert (up true true false ⟨3, 1, 2, bytes [0x62, 0, 0, 0x61]⟩ Ring.zero))) =
      some (up true true false ⟨0, 1, 1, bytes [0x62, 0, 0, 0x61]⟩ Ring.zero) := by decide

/-- V55. -/
theorem test_getc_empty : answer (exec (.getc 1) half) = some ⟨.overrun, 0⟩ ∧
    counters (exec (.getc 1) half) = some Counters.zero := by decide

/-- V66, V68. -/
theorem test_stat_flags : answer (exec (.stat 0 .flags) (txState true tx6)) = some ⟨.ok, 0x0005⟩ ∧
    answer (exec (.stat 1 .flags) (txState true tx6)) = some ⟨.ok, 0⟩ := by decide

/-- V67. -/
theorem test_stat_counts : answer (exec (.stat 0 .rxCount) (two (up true true true rx4 tx8) inert)) = some ⟨.ok, 4⟩ ∧
    answer (exec (.stat 0 .txCount) (two (up true true true rx4 tx8) inert)) = some ⟨.ok, 8⟩ := by decide

/-- The counters of V61. -/
def counted : State := { half with cnt := ⟨3, 0, 0xFFFF, 1, 2, 7⟩ }

/-- V61, V63. -/
theorem test_cntrd : answer (exec (.cntrd 2) counted) = some ⟨.ok, 0xFFFF⟩ ∧
    answer (exec (.cntrd 5) counted) = some ⟨.ok, 7⟩ ∧ answer (exec (.cntrd 6) counted) = some ⟨.invalidArgument, 0⟩ := by
  decide

/-- V62. -/
theorem test_cntrst : counters (exec .cntrst counted) = some Counters.zero ∧
    entry 1 (exec .cntrst counted) = some (counted.inst 1) := by decide

/-- V33. -/
theorem test_irq_everything : entry 1 (exec (.irq 1) { rowStart with halIn := [0xFF, 0x55] }) = some
      (up true true true ⟨0, 1, 1, bytes [0x55]⟩ ⟨1, 1, 0, bytes [0x41]⟩) ∧
    counters (exec (.irq 1) { rowStart with halIn := [0xFF, 0x55] }) = some ⟨1, 1, 1, 1, 0, 0⟩ ∧
    hal (exec (.irq 1) { rowStart with halIn := [0xFF, 0x55] }) =
      some [.statusRead 1 0xFF, .dataRead 1 0x55, .dataWrite 1 0x41] := by decide

/-- V36. -/
theorem test_irq_full : entry 1 (exec (.irq 1) { two inert (up true true false rx4 Ring.zero) with halIn := [0x28, 0x55] }) =
      some (up true true false rx4 Ring.zero) ∧
    counters (exec (.irq 1) { two inert (up true true false rx4 Ring.zero) with halIn := [0x28, 0x55] }) =
      some ⟨1, 0, 0, 0, 0, 1⟩ := by decide

/-- 43 R133(a), (b): a published stream is named by its number. -/
theorem test_stream_identity : half.streamIdentity 1 = some 1 ∧ half.streamIdentity 0 = none := by decide

/-! ### The primitives -/

/-- V11, V14. -/
theorem test_push_wraps : ringPush .rx 4 ⟨0, 3, 3, bytes [0xAA, 0xBB, 0xCC]⟩ 0xDD =
      .ok (some ⟨0, 0, 4, bytes [0xAA, 0xBB, 0xCC, 0xDD]⟩) ∧
    ringPush .rx 4 ⟨1, 0, 3, bytes [0xAA, 0xBB, 0xCC, 0xDD]⟩ 0xEE =
      .ok (some ⟨1, 1, 4, bytes [0xEE, 0xBB, 0xCC, 0xDD]⟩) := ⟨rfl, rfl⟩

/-- V13, V15. -/
theorem test_pop_wraps : ringPop .rx 4 ⟨0, 0, 4, bytes [0xAA, 0xBB, 0xCC, 0xDD]⟩ =
      .ok (some (0xAA, ⟨1, 0, 3, bytes [0xAA, 0xBB, 0xCC, 0xDD]⟩)) ∧
    ringPop .rx 4 ⟨3, 1, 2, bytes [0xEE, 0xBB, 0xCC, 0xDD]⟩ =
      .ok (some (0xDD, ⟨0, 1, 1, bytes [0xEE, 0xBB, 0xCC, 0xDD]⟩)) := ⟨rfl, rfl⟩

/-- 41 R102's corner. -/
theorem test_saturates : satInc 0 = 1 ∧ satInc 0xFFFE = 0xFFFF ∧ satInc 0xFFFF = 0xFFFF := by decide

/-! ### Witnesses: states that meet the hypotheses of each statement -/

theorem witness_DecodeEncodeRoundTrip : Instr.wf (.init 15 true false) = true ∧ Instr.wf (.putc 15 0xFF) = true ∧
    Instr.wf (.stat 15 .illegal) = true ∧ Instr.wf (.cntrd 7) = true ∧ Instr.wf (.irq 15) = true := by decide

theorem witness_EncodeDecodeCanonical : decode (.cmd 0x7F06) = .ok (.cntrd 6) ∧ decode (.evt 0xF) = .ok (.irq 15) :=
  ⟨rfl, rfl⟩

theorem witness_ReservedOpcodesAlone : (0x0FFF#16).toNat / 4096 = 0 ∧ 9 ≤ (0x9000#16).toNat / 4096 ∧
    decode (.cmd 0x0FFF) = .error (.reservedOpcode 0) ∧ decode (.cmd 0x9000) = .error (.reservedOpcode 9) ∧
    decode (.cmd 0x1000) = .ok .gdc ∧ decode (.cmd 0x8FFF) = .ok .cntrst := ⟨by decide, by decide, rfl, rfl, rfl, rfl⟩

theorem witness_IgnoredBitsDoNotMatter : (0x2102#16) &&& usedMask (opField 0x2102) = 0x21FE &&& usedMask (opField 0x2102) ∧
    (0x2102#16) ≠ 0x21FE := by decide

theorem witness_StepRunsDecodedInstruction : ∃ s : State, s.inputs = [.cmd 0x4141, .evt 1] ∧
    decode (.cmd 0x4141) = .ok (.putc 1 0x41) := ⟨{ half with inputs := [.cmd 0x4141, .evt 1] }, rfl, rfl⟩

theorem witness_ReservedCommandRejected : ∃ s t : State, s.inputs = [.cmd 0x0FFF] ∧ (0x0FFF#16).toNat / 4096 = 0 ∧
    t.inputs = [.cmd 0x9000] ∧ 9 ≤ (0x9000#16).toNat / 4096 :=
  ⟨{ half with inputs := [.cmd 0x0FFF] }, { half with inputs := [.cmd 0x9000] }, rfl, by decide, rfl, by decide⟩

theorem witness_NothingPresentedNothingDone : half.inputs = [] := rfl

theorem witness_PresentedTableWordRuns : decodeTableWord 16 0x4041 = some (.putc 0 0x41) ∧
    decodeTableWord 8 0xF = some (.irq 15) := ⟨rfl, rfl⟩

theorem witness_InitBindsAndClears : Inv half ∧ 0 < half.nInst ∧ (half.inst 0).active = false :=
  ⟨half_inv, by decide, by decide⟩

theorem witness_InitRefusals : half.nInst ≤ 2 ∧ 1 < half.nInst ∧ (half.inst 1).active = true := by decide

theorem witness_StartEnablesReception : 1 < half.nInst ∧ (half.inst 1).active = true := by decide

theorem witness_InertInstanceRefused : half.nInst ≤ 2 ∧ 0 < half.nInst ∧ (half.inst 0).active = false := by decide

/-- A draw at reset that is nowhere zero. -/
def oddDraw (_ : Nat) : ResetDraw := ⟨true, true, true, true, true, ⟨3, 2, 4, bytes [1]⟩, ⟨7, 6, 8, bytes [2]⟩⟩

theorem oddDraw_ok : DrawOk Params.cfgT oddDraw := by
  constructor <;> intro i <;> simp only [oddDraw] <;> exact ringInv_of_ok (by decide)

/-- The smallest configuration of 00 R5. -/
theorem smallest_ok : (⟨1, 1, 2, none⟩ : Params).ok = true ∧
    DrawOk ⟨1, 1, 2, none⟩ (fun _ => ⟨true, true, true, true, true, ⟨0, 0, 1, bytes [1]⟩, ⟨1, 1, 2, bytes [2]⟩⟩) :=
  ⟨by decide, ⟨fun _ => ringInv_of_ok (by decide), fun _ => ringInv_of_ok (by decide)⟩⟩

theorem witness_BringUpFromReset : Params.cfgT.ok = true ∧ DrawOk Params.cfgT oddDraw ∧ 1 < Params.cfgT.nInst :=
  ⟨by decide, oddDraw_ok, by decide⟩

theorem witness_ResetInv : Params.cfgT.ok = true ∧ DrawOk Params.cfgT oddDraw := ⟨by decide, oddDraw_ok⟩

theorem witness_ResetValues : 1 < Params.cfgT.nInst := by decide

/-- Translation off; translation on and another byte; one free slot left; an empty buffer (V40, V44, V49, V42). -/
theorem witness_PutcQueuesOneByte :
    (Inv (txState true tx7) ∧ ((txState true tx7).inst 0).active = true ∧
      ¬ (((txState true tx7).inst 0).cfgCrnl = true ∧ (0x41#8) = 0x0A) ∧
      ((txState true tx7).inst 0).tx.cnt < (txState true tx7).txCap) ∧
    (Inv (txState false Ring.zero) ∧ ((txState false Ring.zero).inst 0).active = true ∧
      ¬ (((txState false Ring.zero).inst 0).cfgCrnl = true ∧ (0x0A#8) = 0x0A) ∧
      ((txState false Ring.zero).inst 0).tx.cnt < (txState false Ring.zero).txCap) :=
  ⟨⟨txState_inv.2.2.2.1, by decide, by decide, by decide⟩, ⟨txState_inv.2.1, by decide, by decide, by decide⟩⟩

theorem witness_PutcQueuesCarriageReturnFirst : Inv (txState true tx6) ∧ ((txState true tx6).inst 0).active = true ∧
    ((txState true tx6).inst 0).cfgCrnl = true ∧ ((txState true tx6).inst 0).tx.cnt + 2 ≤ (txState true tx6).txCap :=
  ⟨txState_inv.2.2.1, by decide, by decide, by decide⟩

theorem witness_PutcOrphanCarriageReturn : Inv (txState true tx7) ∧ ((txState true tx7).inst 0).active = true ∧
    ((txState true tx7).inst 0).cfgCrnl = true ∧ ((txState true tx7).inst 0).tx.cnt + 1 = (txState true tx7).txCap :=
  ⟨txState_inv.2.2.2.1, by decide, by decide, by decide⟩

theorem witness_PutcOnFullBuffer : Inv (txState true tx8) ∧ ((txState true tx8).inst 0).active = true ∧
    ((txState true tx8).inst 0).tx.cnt = (txState true tx8).txCap := ⟨txState_inv.2.2.2.2.1, by decide, by decide⟩

/-- Both values of the translation option, with reception in the first event and none in the second. -/
theorem witness_LineFeedOnTheWire : ∀ crnl : Bool, ∃ s : State, Inv s ∧ (s.inst 0).active = true ∧ (s.inst 0).tx.cnt = 0 ∧
    (0xA0#8).getLsbD 7 = true ∧ (0x80#8).getLsbD 7 = true ∧
    s.halIn = eventAnswers 0xA0 0x55 ++ eventAnswers 0x80 0 ++ [] ∧ (s.inst 0).cfgCrnl = crnl := by
  intro crnl
  refine ⟨{ txState crnl Ring.zero with halIn := [0xA0, 0x55, 0x80] }, inv_of_ok ?_, ?_, ?_, ?_, ?_, ?_, ?_⟩ <;>
    cases crnl <;> decide

theorem witness_GetcTakesOldestByte : ∃ s : State, Inv s ∧ (s.inst 0).active = true ∧ 0 < (s.inst 0).rx.cnt :=
  ⟨two (up true true true rx4 tx8) inert, inv_of_ok (by decide), by decide, by decide⟩

theorem witness_GetcWouldBlock : 1 < half.nInst ∧ (half.inst 1).active = true ∧ (half.inst 1).rx.cnt = 0 := by decide

/-- Out of range; the illegal selector; an inert entry; each selector on an active one. -/
theorem witness_StatAnswers : Inv half ∧ half.nInst ≤ 2 ∧ 0 < half.nInst ∧ StatSel.flags ≠ .illegal ∧
    (half.inst 0).active = false ∧ 1 < half.nInst ∧ (half.inst 1).active = true :=
  ⟨half_inv, by decide, by decide, by decide, by decide, by decide, by decide⟩

theorem witness_CntrdAnswers : 6 ≤ 6 := by decide

theorem witness_PushAppends : ∀ d : Dir, Inv half ∧ (half.inst 1).active = true ∧
    ((half.inst 1).ring d).cnt < half.cap d := by
  intro d
  cases d <;> exact ⟨half_inv, by decide, by decide⟩

theorem witness_PushOnFullCountsOnce : ∃ s : State, (s.inst 0).rx.cnt = s.rxCap ∧ (s.inst 0).tx.cnt = s.txCap :=
  ⟨two (up true true true rx4 tx8) inert, by decide, by decide⟩

/-- An empty ring, and a full one whose get index is the last. -/
theorem witness_PopTakesOldest : (Inv half ∧ (half.inst 1).active = true ∧ ((half.inst 1).ring .rx).cnt = 0) ∧
    (Inv (txState true tx8) ∧ ((txState true tx8).inst 0).active = true ∧
      0 < (((txState true tx8).inst 0).ring .tx).cnt) :=
  ⟨⟨half_inv, by decide, by decide⟩, ⟨txState_inv.2.2.2.2.1, by decide, by decide⟩⟩

theorem witness_RingImplementsQueue : RingInv 8 tx8 ∧ RingLinked 8 tx8 ∧ RingInv 1 ⟨0, 0, 1, bytes [5]⟩ ∧
    RingLinked 1 ⟨0, 0, 1, bytes [5]⟩ := ⟨ringInv_of_ok (by decide), rfl, ringInv_of_ok (by decide), rfl⟩

/-- Three pushes on a ring of two, with pops between, from an empty ring at its last index. -/
theorem witness_FifoOrder : RingInv 2 ⟨1, 1, 0, []⟩ ∧ RingLinked 2 ⟨1, 1, 0, []⟩ ∧ (⟨1, 1, 0, []⟩ : Ring).cnt = 0 ∧
    ringRun .rx 2 [.push 1, .push 2, .push 3, .pop, .push 4] ⟨1, 1, 0, []⟩ =
      .ok ([.pushed true, .pushed true, .pushed false, .popped (some 1), .pushed true], ⟨0, 0, 2, bytes [2, 4]⟩) :=
  ⟨ringInv_of_ok (by decide), rfl, rfl, rfl⟩

/-- A counter below the top, one at the top, another counter, and one an operation raises. -/
theorem witness_SaturatingIncrement : counted.cnt.get .ore ≠ 0xFFFF ∧ counted.cnt.get .fe = 0xFFFF ∧
    CounterId.ne ≠ .ore ∧
    ∃ t, exec (.putc 0 0x41) (txState true tx8) = .next t ∧
      ((txState true tx8).cnt.get .txOvr).toNat < (t.cnt.get .txOvr).toNat :=
  ⟨by decide, by decide, by decide, _, rfl, by decide⟩

theorem witness_IrqOutOfRangeNoEffect : half.nInst ≤ 2 := by decide

theorem witness_IrqInactiveGuard : 0 < half.nInst ∧ (half.inst 0).active = false := by decide

/-- Every error bit and TXE set, RXNE clear (V31). -/
theorem witness_ErrorBitsWithoutDataIgnored : ∃ s : State, Inv s ∧ (s.inst 1).active = true ∧
    s.nextAnswer.getLsbD 5 = false ∧ s.nextAnswer = 0x8F :=
  ⟨{ rowStart with halIn := [0x8F] }, inv_of_ok (by decide), by decide, by decide, by decide⟩

theorem witness_IrqCountsErrors : Inv rowStart ∧ (rowStart.inst 1).active = true := ⟨rowStart_inv, by decide⟩

/-- Data with room, data on a full buffer, no data. -/
theorem witness_IrqReceives : (∃ s : State, Inv s ∧ (s.inst 1).active = true ∧ s.nextAnswer.getLsbD 5 = true ∧
      (s.inst 1).rx.cnt < s.rxCap) ∧
    (∃ s : State, Inv s ∧ (s.inst 1).active = true ∧ s.nextAnswer.getLsbD 5 = true ∧ (s.inst 1).rx.cnt = s.rxCap) ∧
    ∃ s : State, Inv s ∧ (s.inst 1).active = true ∧ s.nextAnswer.getLsbD 5 = false :=
  ⟨⟨{ rowStart with halIn := [0xFF, 0x55] }, inv_of_ok (by decide), by decide, by decide, by decide⟩,
    ⟨{ two inert (up true true false rx4 Ring.zero) with halIn := [0x28] }, inv_of_ok (by decide), by decide, by decide,
      by decide⟩,
    ⟨{ rowStart with halIn := [0xDF] }, inv_of_ok (by decide), by decide, by decide⟩⟩

/-- TXE with a byte, TXE with none, no TXE. -/
theorem witness_IrqTransmits : (∃ s : State, Inv s ∧ (s.inst 1).active = true ∧ s.nextAnswer.getLsbD 7 = true ∧
      0 < (s.inst 1).tx.cnt) ∧
    (∃ s : State, Inv s ∧ (s.inst 1).active = true ∧ s.nextAnswer.getLsbD 7 = true ∧ (s.inst 1).tx.cnt = 0) ∧
    ∃ s : State, Inv s ∧ (s.inst 1).active = true ∧ s.nextAnswer.getLsbD 7 = false :=
  ⟨⟨{ rowStart with halIn := [0x80] }, inv_of_ok (by decide), by decide, by decide, by decide⟩,
    ⟨{ half with halIn := [0x80] }, inv_of_ok (by decide), by decide, by decide, by decide⟩,
    ⟨{ rowStart with halIn := [0x7F] }, inv_of_ok (by decide), by decide, by decide⟩⟩

theorem witness_IrqHalTransactions : Inv half ∧ half.nInst ≤ 2 ∧ 0 < half.nInst ∧ (half.inst 0).active = false ∧
    1 < half.nInst ∧ (half.inst 1).active = true := ⟨half_inv, by decide, by decide, by decide, by decide, by decide⟩

theorem witness_IrqFrame : (∃ s : State, Inv s ∧ (s.inst 1).active = true ∧ s.nextAnswer.getLsbD 5 = false) ∧
    ∃ s : State, Inv s ∧ (s.inst 1).active = true ∧ s.nextAnswer.getLsbD 5 = true :=
  ⟨⟨{ rowStart with halIn := [0x80] }, inv_of_ok (by decide), by decide, by decide⟩,
    { rowStart with halIn := [0xA0, 0x55] }, inv_of_ok (by decide), by decide, by decide⟩

theorem witness_EventsOfTwoInstancesCommute : Inv rowStart ∧ 0 ≠ 1 ∧ (rowStart.inst 0).active = true ∧
    (rowStart.inst 1).active = true := ⟨rowStart_inv, by decide, by decide, by decide⟩

/-- A state of the invariant whose step is an event that receives and sends. -/
theorem witness_StepKeepsInv : ∃ s t : State, Inv s ∧ step s = .next t ∧ t.halLog ≠ [] :=
  ⟨{ rowStart with inputs := [.evt 1], halIn := [0xFF, 0x55] }, _, inv_of_ok (by decide), rfl, by decide⟩

theorem witness_NothingStops : Inv half := half_inv

theorem witness_ParametersFixed : ∃ s t : State, step s = .next t ∧ t ≠ s :=
  ⟨{ half with inputs := [.cmd 0x2003] }, _, rfl, by decide⟩

theorem witness_OtherInstancesUntouched : ∃ t, exec (.init 0 true true) half = .next t ∧
    (Instr.init 0 true true).instOf ≠ some 1 := ⟨_, rfl, by decide⟩

/-- An active entry, and an inert one that becomes active. -/
theorem witness_ActiveOnlyByInit : ∃ t, exec (.init 0 true true) half = .next t ∧ (half.inst 1).active = true ∧
    (half.inst 0).active = false ∧ (t.inst 0).active = true := ⟨_, rfl, by decide, by decide, by decide⟩

theorem witness_LifeCycleOneWay : Inv half ∧ ∃ t, exec (.init 0 true true) half = .next t ∧
    (half.inst 0).lifeCycle = .inert ∧ (t.inst 0).lifeCycle = .initialized ∧
    ∃ u, exec (.start 0) t = .next u ∧ (u.inst 0).lifeCycle = .started :=
  ⟨half_inv, _, rfl, by decide, by decide, _, rfl, by decide⟩

theorem witness_CountersNeverFall : ∃ t, exec (.putc 0 0x41) (txState true tx8) = .next t ∧
    Instr.putc 0 0x41 ≠ .cntrst := ⟨_, rfl, by decide⟩

/-- A counter PUTC changes, and one an event changes. -/
theorem witness_CounterOwners : (∃ t, exec (.putc 0 0x41) (txState true tx8) = .next t ∧ Instr.putc 0 0x41 ≠ .cntrst ∧
      t.cnt.get .txOvr ≠ (txState true tx8).cnt.get .txOvr) ∧
    ∃ s t : State, exec (.irq 1) s = .next t ∧ t.cnt.get .ore ≠ s.cnt.get .ore :=
  ⟨⟨_, rfl, by decide, by decide⟩, { rowStart with halIn := [0xFF, 0x55] }, _, rfl, by decide⟩

/-- Each end of each buffer moved by its own writer. -/
theorem witness_SingleWriter :
    (∃ s t : State, exec (.irq 1) s = .next t ∧ (∀ cs crnl, Instr.irq 1 ≠ .init 1 cs crnl) ∧
      (t.inst 1).rx.put ≠ (s.inst 1).rx.put ∧ t.bufByte .rx 1 0 ≠ s.bufByte .rx 1 0 ∧
      (t.inst 1).tx.get ≠ (s.inst 1).tx.get) ∧
    (∃ s t : State, exec (.getc 0) s = .next t ∧ (t.inst 0).rx.get ≠ (s.inst 0).rx.get) ∧
    ∃ s t : State, exec (.putc 0 0x0A) s = .next t ∧ (t.inst 0).tx.put ≠ (s.inst 0).tx.put ∧
      t.bufByte .tx 0 1 ≠ s.bufByte .tx 0 1 :=
  ⟨⟨{ rowStart with halIn := [0xFF, 0x55] }, _, rfl, by simp, by decide, by decide, by decide⟩,
    ⟨two (up true true true rx4 tx8) inert, _, rfl, by decide⟩, ⟨txState true tx6, _, rfl, by decide, by decide⟩⟩

/-- Every kind of transaction, from an operation that issues it. -/
theorem witness_HalTransactionIssuers :
    (∃ t, exec (.start 1) half = .next t ∧ t.halLog = [.rxieEnable 1, .lineEnable 1]) ∧
    (∃ t, exec (.init 0 true true) half = .next t ∧ t.halLog = [.lineDisable 0, .rxieDisable 0, .txeieDisable 0]) ∧
    (∃ t, exec (.putc 1 0x41) half = .next t ∧ t.halLog = [.txeieEnable 1]) ∧
    ∃ s t : State, exec (.irq 1) s = .next t ∧ t.halLog = [.statusRead 1 0xFF, .dataRead 1 0x55, .dataWrite 1 0x41] :=
  ⟨⟨_, rfl, by decide⟩, ⟨_, rfl, by decide⟩, ⟨_, rfl, by decide⟩, { rowStart with halIn := [0xFF, 0x55] }, _, rfl,
    by decide⟩

theorem witness_OneResponsePerCommand : (∃ t, exec (.getc 1) half = .next t ∧ ∀ i, Instr.getc 1 ≠ .irq i) ∧
    ∃ t, exec (.irq 0) half = .next t ∧ ∃ i, Instr.irq 0 = .irq i := ⟨⟨_, rfl, by simp⟩, _, rfl, 0, rfl⟩

/-- One command for each error: the number just out of range, the illegal selector, CNTRD 6, the second INIT, an inert
entry, nothing received, one slot for two bytes. -/
theorem witness_ErrorsExactlyWhen :
    (∀ ins : Instr, ins ∈ [.start 2, .stat 1 .illegal, .cntrd 6] →
      ∃ t, exec ins half = .next t ∧ t.rspLog = half.rspLog ++ [⟨.invalidArgument, 0⟩]) ∧
    (∃ t, exec (.init 1 true true) half = .next t ∧ t.rspLog = half.rspLog ++ [⟨.invalidState, 0⟩]) ∧
    (∃ t, exec (.putc 0 0x41) half = .next t ∧ t.rspLog = half.rspLog ++ [⟨.badInstance, 0⟩]) ∧
    (∃ t, exec (.getc 1) half = .next t ∧ t.rspLog = half.rspLog ++ [⟨.overrun, 0⟩]) ∧ Inv half ∧
    Inv (txState true tx7) ∧
    ∃ t, exec (.putc 0 0x0A) (txState true tx7) = .next t ∧
      t.rspLog = (txState true tx7).rspLog ++ [⟨.overrun, 0⟩] := by
  refine ⟨?_, ⟨_, rfl, rfl⟩, ⟨_, rfl, rfl⟩, ⟨_, rfl, rfl⟩, half_inv, txState_inv.2.2.2.1, _, rfl, by decide⟩
  intro ins h
  simp only [List.mem_cons, List.not_mem_nil, or_false] at h
  obtain rfl | rfl | rfl := h <;> exact ⟨_, rfl, rfl⟩

/-- An error that leaves everything, and PUTC's Overrun. -/
theorem witness_ErrorsLeaveState : (Inv half ∧ ∃ t, exec (.getc 1) half = .next t ∧
      t.rspLog = half.rspLog ++ [⟨.overrun, 0⟩] ∧ (ErrCode.overrun) ≠ .ok ∧ ∀ i b, Instr.getc 1 ≠ .putc i b) ∧
    (Inv (txState true tx7) ∧ ∃ t, exec (.putc 0 0x0A) (txState true tx7) = .next t ∧
      t.rspLog = (txState true tx7).rspLog ++ [⟨.overrun, 0⟩]) :=
  ⟨⟨half_inv, _, rfl, by decide, by decide, by simp⟩, txState_inv.2.2.2.1, _, rfl, by decide⟩

/-- A run from reset that leaves a byte queued. -/
theorem witness_QueuedBytesKeepTxeie : Params.cfgT.ok = true ∧ DrawOk Params.cfgT oddDraw ∧
    ∃ t, Host.Core.run Sys2Proof.core 2 { State.resetWith Params.cfgT oddDraw with
        inputs := [.cmd 0x2002, .cmd 0x4041], halIn := [] } = .next t ∧
      (t.inst 0).active = true ∧ 0 < (t.inst 0).tx.cnt :=
  ⟨by decide, oddDraw_ok, _, rfl, by decide, by decide⟩

/-- A run that queues, sends and receives. -/
theorem witness_TransmitFifo : Inv rowStart ∧ ∃ t,
    execAll [.putc 1 0x0A, .irq 1] { rowStart with halIn := [0xFF, 0x55] } = .next t ∧ wire 1 t.halLog = [0x41] :=
  ⟨rowStart_inv, _, rfl, by decide⟩

theorem witness_ReceiveFifo : Inv rowStart ∧ ∃ t,
    execAll [.irq 1, .getc 1] { rowStart with halIn := [0xFF, 0x55] } = .next t ∧
      rxOut 1 [.irq 1, .getc 1] { rowStart with halIn := [0xFF, 0x55] } = [0x55] := ⟨rowStart_inv, _, rfl, by decide⟩

/-- Two draws that differ in every bit, and a run. -/
theorem witness_ResetDrawsUnseen : Params.cfgT.ok = true ∧ DrawOk Params.cfgT oddDraw ∧
    DrawOk Params.cfgT (fun _ => ⟨false, false, false, false, false, Ring.zero, Ring.zero⟩) ∧
    ∃ t, Host.Core.run Sys2Proof.core 2 { State.resetWith Params.cfgT oddDraw with
        inputs := [.cmd 0x2002, .evt 1], halIn := [] } = .next t :=
  ⟨by decide, oddDraw_ok, ⟨fun _ => ringInv_of_ok (by decide), fun _ => ringInv_of_ok (by decide)⟩, _, rfl⟩

end Sys2Proof.Tests
end

section
/-! Scope (00): every operation and every step completes under the invariant, and the parameters never change. -/

namespace Sys2Proof.Machine

/-! ### Completion (00 R6(5), 20 R42) -/

/-- A command behind the shared checks completes when its body does. -/
theorem onActive_completes {i : Nat} {s : State} {body : Result}
    (h : i < s.nInst → ∃ t, body = .next t) : ∃ t, onActive i s body = .next t := by
  obtain ⟨-, e⟩ | ⟨-, -, e⟩ | ⟨hn, -, e⟩ := onActive_cases i s body
  · exact ⟨_, e⟩
  · exact ⟨_, e⟩
  · rw [e]; exact h hn

/-- PUTC completes on an instance whose transmit ring is in its ranges. -/
theorem putcActive_completes {i : Nat} (b : Byte) {s : State} (hs : Inv s) (hn : i < s.nInst) :
    ∃ t, putcActive i b s = .next t := by
  obtain ⟨ok, s1, hp⟩ := putcPushes_ok b hs hn
  unfold putcActive
  rw [hp]
  cases ok <;> exact ⟨_, rfl⟩

theorem execIrq_completes (i : Nat) {s : State} (hs : Inv s) : ∃ t, execIrq i s = .next t := by
  by_cases hn : s.nInst ≤ i
  · exact ⟨s, if_pos hn⟩
  · cases ha : (s.inst i).active with
    | false => exact ⟨halLineDisable i s, by simp [execIrq, hn, ha]⟩
    | true => exact ⟨irqDone i s, execIrq_active hs ha⟩

/-- Every operation, whatever its operands, completes in every state that meets the invariant. -/
theorem exec_completes (ins : Instr) {s : State} (hs : Inv s) : ∃ t, exec ins s = .next t := by
  cases ins with
  | gdc => exact ⟨_, rfl⟩
  | init i cs crnl =>
    obtain ⟨-, e⟩ | ⟨-, -, e⟩ | ⟨-, -, e⟩ := execInit_cases i cs crnl s <;> exact ⟨_, e⟩
  | start i => exact onActive_completes fun _ => ⟨_, rfl⟩
  | putc i b => exact onActive_completes (putcActive_completes b hs)
  | getc i => exact onActive_completes (getcActive_ok hs)
  | stat i sel =>
    obtain ⟨-, e⟩ | ⟨-, -, -, e⟩ | ⟨-, -, -, e⟩ := execStat_cases i sel s <;> exact ⟨_, e⟩
  | cntrd k => obtain ⟨-, -, e⟩ | ⟨-, _, -, e⟩ := execCntrd_cases k s <;> exact ⟨_, e⟩
  | cntrst => exact ⟨_, rfl⟩
  | irq i => exact execIrq_completes i hs

/-- The invariant says nothing of the words presented. -/
theorem inv_inputs {s : State} (ws : List PortWord) (hs : Inv s) : Inv { s with inputs := ws } :=
  inv_of_insts (s := s) rfl rfl rfl rfl hs

theorem step_completes {s : State} (hs : Inv s) : ∃ t, step s = .next t := by
  obtain ⟨-, e⟩ | ⟨_, _, _, -, -, e⟩ | ⟨_, rest, ins, -, -, e⟩ := step_cases s
  · exact ⟨_, e⟩
  · exact ⟨_, e⟩
  · rw [e]; exact exec_completes ins (inv_inputs rest hs)

/-- Settles O45, operation by operation: under the invariant no index of an array access is out of range. -/
theorem nothingStops : Obligations.NothingStops :=
  fun _ hs => ⟨fun ins => exec_completes ins hs, step_completes hs⟩

/-! ### The parameters (00 R5, R6(2)) -/

@[simp] theorem respond_params (r : Rsp) (s : State) : (respond r s).params = s.params := rfl

@[simp] theorem setInst_params (i : Nat) (c : Inst) (s : State) : (s.setInst i c).params = s.params := by
  simp [State.params]

@[simp] theorem halLineDisable_params (i : Nat) (s : State) : (halLineDisable i s).params = s.params :=
  setInst_params i _ s

@[simp] theorem initDone_params (i : Nat) (cs crnl : Bool) (s : State) :
    (initDone i cs crnl s).params = s.params := setInst_params i _ s

@[simp] theorem startDone_params (i : Nat) (s : State) : (startDone i s).params = s.params := setInst_params i _ s

@[simp] theorem irqDone_params (i : Nat) (s : State) : (irqDone i s).params = s.params := by simp [State.params]

/-- No operation changes a parameter, in every state. -/
theorem exec_params {ins : Instr} {s t : State} (h : exec ins s = .next t) : t.params = s.params := by
  obtain ⟨r, -, rfl⟩ | ⟨i, cs, crnl, -, -, -, rfl⟩ | ⟨i, -, -, -, rfl⟩ | ⟨i, b, ok, r, -, -, -, effect⟩ |
    ⟨i, -, -, -, -, rfl⟩ | ⟨-, rfl⟩ | ⟨i, -, -, rfl⟩ | ⟨i, -, -, -, rfl⟩ | ⟨i, -, -, -, rfl⟩ := exec_cases h
  · exact respond_params r s
  · simp only [respond_params, initDone_params]
  · simp only [respond_params, startDone_params]
  · exact effect.params
  · simp only [respond_params, setInst_params]
  · rfl
  · rfl
  · exact halLineDisable_params i s
  · exact irqDone_params i s

theorem step_params {s t : State} (h : step s = .next t) : t.params = s.params := by
  obtain ⟨-, e⟩ | ⟨_, _, _, -, -, e⟩ | ⟨_, rest, ins, -, -, e⟩ := step_cases s <;> rw [e] at h
  · rw [← next_inj h]
  · rw [← next_inj h]; rfl
  · exact (exec_params h).trans rfl

/-- Settles O46: each way an operation can end keeps the capacities, the default stream and the registry's length. -/
theorem parametersFixed : Obligations.ParametersFixed := fun _ _ h => step_params h

end Sys2Proof.Machine
end

section
/-! State (10): what one operation does to a registry entry, and from it the invariant, the owner of ACTIVE and the
writer of each end of each buffer. -/

namespace Sys2Proof.Machine

/-! ### One operation, one entry -/

/-- Every way an operation can change the entry of instance `i`: the operation, and the entry it leaves. -/
inductive EntryChange (s : State) (i : Nat) : Instr → Inst → Prop
  /-- A successful INIT (40 R91). -/
  | init (cs crnl : Bool) (inRange : i < s.nInst) (inert : (s.inst i).active = false) :
      EntryChange s i (.init i cs crnl)
        { active := true, cfgCs := cs, cfgCrnl := crnl, streamPub := false, lineEn := false, rxie := false,
          txeie := false, rx := clearedRing s.rxCap (s.inst i).rx, tx := clearedRing s.txCap (s.inst i).tx }
  /-- A successful START (40 R92). -/
  | start (active : (s.inst i).active = true) :
      EntryChange s i (.start i)
        { s.inst i with rxie := true, lineEn := true, streamPub := (s.inst i).streamPub || (s.inst i).cfgCs }
  /-- PUTC of an active instance, answered OK or Overrun (43 R130, R131). -/
  | putc (b : Byte) (ok : Bool) (r : Ring) (active : (s.inst i).active = true)
      (ring : PutcRing s.txCap (s.inst i) b ok r) :
      EntryChange s i (.putc i b)
        { s.inst i with tx := r, txeie := (s.inst i).txeie || ((s.inst i).tx.cnt == 0) }
  /-- A successful GETC (43 R132). -/
  | getc (active : (s.inst i).active = true) (nonempty : (s.inst i).rx.cnt ≠ 0) :
      EntryChange s i (.getc i) { s.inst i with rx := poppedRing s.rxCap (s.inst i).rx }
  /-- An event on an inert instance (42 R111). -/
  | guard (inert : (s.inst i).active = false) : EntryChange s i (.irq i) { s.inst i with lineEn := false }
  /-- An event on an active instance (42 R110). -/
  | event (active : (s.inst i).active = true) :
      EntryChange s i (.irq i)
        { s.inst i with
          txeie := (s.inst i).txeie && !(srTxe s.nextAnswer && decide ((s.inst i).tx.cnt = 0)),
          rx := if srRxne s.nextAnswer && decide ((s.inst i).rx.cnt ≠ s.rxCap) then
              pushedRing s.rxCap (s.inst i).rx s.takeAnswer.nextAnswer
            else (s.inst i).rx,
          tx := if srTxe s.nextAnswer && decide ((s.inst i).tx.cnt ≠ 0) then
              poppedRing s.txCap (s.inst i).tx
            else (s.inst i).tx }

/-- A state that differs in one entry, changed as `EntryChange` allows: any other entry is as it was. -/
theorem entryChange_of_update {ins : Instr} {s t : State} {i : Nat} {c : Inst}
    (ht : ∀ j, t.inst j = if j = i then c else s.inst j) (hc : EntryChange s i ins c) (j : Nat) :
    t.inst j = s.inst j ∨ EntryChange s j ins (t.inst j) := by
  by_cases hj : j = i
  · subst hj
    rw [ht, if_pos rfl]
    exact .inr hc
  · exact .inl (by rw [ht, if_neg hj])

/-- An operation leaves an entry as it was, or changes it in one of the ways of `EntryChange`. -/
theorem exec_inst {ins : Instr} {s t : State} (h : exec ins s = .next t) (j : Nat) :
    t.inst j = s.inst j ∨ EntryChange s j ins (t.inst j) := by
  obtain ⟨r, -, rfl⟩ | ⟨i, cs, crnl, rfl, hn, ha, rfl⟩ | ⟨i, rfl, hn, ha, rfl⟩ | ⟨i, b, ok, r, rfl, -, ha, effect⟩ |
    ⟨i, rfl, hn, ha, hc, rfl⟩ | ⟨-, rfl⟩ | ⟨i, -, -, rfl⟩ | ⟨i, rfl, hn, ha, rfl⟩ | ⟨i, rfl, hn, ha, rfl⟩ :=
    exec_cases h
  · exact .inl rfl
  · exact entryChange_of_update (initDone_inst hn) (.init cs crnl hn ha) j
  · exact entryChange_of_update (startDone_inst hn) (.start ha) j
  · exact entryChange_of_update effect.inst (.putc b ok r ha effect.ring) j
  · exact entryChange_of_update (fun k => inst_setInst s i k _ hn) (.getc ha hc) j
  · exact .inl rfl
  · exact .inl rfl
  · exact entryChange_of_update (halLineDisable_inst hn) (.guard ha) j
  · exact entryChange_of_update (irqDone_inst hn) (.event ha) j

/-! ### The invariant (10 R10, R23, R29; 40 R92, R93) -/

/-- The ranges after any of PUTC's ways to end. -/
theorem PutcRing.ringInv {cap : Nat} {c : Inst} {b : Byte} {ok : Bool} {r : Ring} (h : PutcRing cap c b ok r)
    (hi : RingInv cap c.tx) : RingInv cap r := by
  obtain ⟨-, -, h1, rfl⟩ | ⟨-, -, h1, h2, rfl⟩ | ⟨-, -, h1, -, rfl⟩ | ⟨-, -, rfl⟩ := h
  · exact pushed_inv b hi h1
  · exact pushed_inv b (pushed_inv carriageReturn hi h1) h2
  · exact pushed_inv carriageReturn hi h1
  · exact hi

/-- The link of 10 R23 after any of PUTC's ways to end. -/
theorem PutcRing.linked {cap : Nat} {c : Inst} {b : Byte} {ok : Bool} {r : Ring} (h : PutcRing cap c b ok r)
    (hl : RingLinked cap c.tx) : RingLinked cap r := by
  obtain ⟨-, -, -, rfl⟩ | ⟨-, -, -, -, rfl⟩ | ⟨-, -, -, -, rfl⟩ | ⟨-, -, rfl⟩ := h
  · exact pushed_linked b hl
  · exact pushed_linked b (pushed_linked carriageReturn hl)
  · exact pushed_linked carriageReturn hl
  · exact hl

/-- An entry's invariant carries over to new rings and a new TXEIE that meet it; what it says of the other registers
stays. -/
theorem InstInv.withRings {rxCap txCap : Nat} {c : Inst} {rx tx : Ring} {txeie : Bool} (h : InstInv rxCap txCap c)
    (hrx : RingInv rxCap rx) (htx : RingInv txCap tx) (rxLinked : c.active = true → RingLinked rxCap rx)
    (txLinked : c.active = true → RingLinked txCap tx)
    (txEnabled : c.active = true → 0 < tx.cnt → txeie = true) :
    InstInv rxCap txCap { c with rx := rx, tx := tx, txeie := txeie } where
  rx := hrx
  tx := htx
  rxLinked := rxLinked
  txLinked := txLinked
  txEnabled := txEnabled
  started := h.started
  published := h.published

/-- Every change an operation makes to an entry keeps the entry's invariant. -/
theorem EntryChange.instInv {s : State} {i : Nat} {ins : Instr} {c : Inst} (hc : EntryChange s i ins c)
    (rxPos : 0 < s.rxCap) (txPos : 0 < s.txCap) (h : InstInv s.rxCap s.txCap (s.inst i)) :
    InstInv s.rxCap s.txCap c := by
  cases hc with
  | init cs crnl _ _ =>
    rw [clearedRing_eq h.rx, clearedRing_eq h.tx]
    exact ⟨zero_inv rxPos, zero_inv txPos, fun _ => zero_linked, fun _ => zero_linked,
      fun _ hq => absurd hq (Nat.lt_irrefl 0), fun _ => rfl, by simp⟩
  | start active =>
    refine ⟨h.rx, h.tx, h.rxLinked, h.txLinked, h.txEnabled, fun _ => rfl, ?_⟩
    have hp := h.published
    rw [active] at hp
    simp only [hp, active]
    cases (s.inst i).cfgCs <;> simp
  | putc b ok r active ring =>
    refine h.withRings h.rx (ring.ringInv h.tx) h.rxLinked (fun ha => ring.linked (h.txLinked ha)) fun ha _ => ?_
    by_cases empty : (s.inst i).tx.cnt = 0
    · simp [empty]
    · simp [h.txEnabled ha (Nat.pos_of_ne_zero empty)]
  | getc active nonempty =>
    exact h.withRings (popped_inv h.rx) h.tx (fun ha => popped_linked (h.rxLinked ha) nonempty) h.txLinked h.txEnabled
  | guard inert =>
    refine ⟨h.rx, h.tx, h.rxLinked, h.txLinked, h.txEnabled, fun ha => ?_, ?_⟩
    · exact absurd ha (by simp [inert])
    · simp [h.published, inert]
  | event active =>
    refine h.withRings ?_ ?_ (fun ha => ?_) (fun ha => ?_) fun ha hq => ?_
    · split
      · next room => exact pushed_inv _ h.rx (of_decide_eq_true (Bool.and_elim_right room))
      · exact h.rx
    · split
      · exact popped_inv h.tx
      · exact h.tx
    · split
      · exact pushed_linked _ (h.rxLinked ha)
      · exact h.rxLinked ha
    · split
      · next queued => exact popped_linked (h.txLinked ha) (of_decide_eq_true (Bool.and_elim_right queued))
      · exact h.txLinked ha
    · have before : (s.inst i).tx.cnt ≠ 0 := by
        intro empty
        simp [empty] at hq
      simp [h.txEnabled ha (Nat.pos_of_ne_zero before), before]

/-- Every operation keeps the invariant: it keeps the parameters, and each entry it changes. -/
theorem exec_inv {ins : Instr} {s t : State} (hs : Inv s) (h : exec ins s = .next t) : Inv t := by
  have hp : t.params = s.params := exec_params h
  have hn : t.nInst = s.nInst := congrArg Params.nInst hp
  have hr : t.rxCap = s.rxCap := congrArg Params.rxCap hp
  have ht : t.txCap = s.txCap := congrArg Params.txCap hp
  refine ⟨by rw [hp]; exact hs.params, fun i hi => ?_⟩
  rw [hn] at hi
  rw [hr, ht]
  obtain same | change := exec_inst h i
  · rw [same]; exact hs.insts i hi
  · exact change.instInv (hs.cap_pos .rx) (hs.cap_pos .tx) (hs.insts i hi)

theorem step_inv {s t : State} (hs : Inv s) (h : step s = .next t) : Inv t := by
  obtain ⟨-, e⟩ | ⟨_, rest, _, -, -, e⟩ | ⟨_, rest, ins, -, -, e⟩ := step_cases s <;> rw [e] at h
  · rw [← next_inj h]; exact hs
  · rw [← next_inj h]; exact inv_respond _ (inv_inputs rest hs)
  · exact exec_inv (inv_inputs rest hs) h

/-- Settles O44, entry by entry over the ways an operation can change one. -/
theorem stepKeepsInv : Obligations.StepKeepsInv := fun _ _ => step_inv

/-! ### Who writes what (10 R15, R24) -/

/-- An operation leaves ACTIVE of an instance as it was, or it is INIT of that instance and answers OK (10 R15). -/
theorem exec_active {ins : Instr} {s t : State} (h : exec ins s = .next t) (j : Nat) :
    (t.inst j).active = (s.inst j).active ∨
      ((s.inst j).active = false ∧ (∃ cs crnl, ins = .init j cs crnl) ∧ t.rspLog = s.rspLog ++ [⟨.ok, 0⟩]) := by
  obtain same | change := exec_inst h j
  · exact .inl (by rw [same])
  · generalize t.inst j = c at change
    cases change with
    | init cs crnl inRange inert =>
      obtain ⟨hn, -⟩ | ⟨-, ha, -⟩ | ⟨-, -, e⟩ := execInit_cases j cs crnl s
      · exact absurd inRange (Nat.not_lt.mpr hn)
      · exact absurd ha (by simp [inert])
      · have ht : respond ⟨.ok, 0⟩ (initDone j cs crnl s) = t := next_inj (e.symm.trans h)
        exact .inr ⟨inert, ⟨cs, crnl, rfl⟩, by rw [← ht]; rfl⟩
    | start | putc | getc | guard | event => exact .inl rfl

/-- Settles O48: only INIT's entry has a new ACTIVE, and INIT succeeds only on an inert instance. -/
theorem activeOnlyByInit : Obligations.ActiveOnlyByInit := by
  intro ins s t j h
  obtain same | ⟨inert, isInit, answer⟩ := exec_active h j
  · rw [same]
    exact ⟨id, fun hf ht => absurd ht (by simp [hf])⟩
  · exact ⟨fun ha => absurd ha (by simp [inert]), fun _ _ => ⟨isInit, answer⟩⟩

/-- PUTC moves the put end of the transmit ring alone. -/
theorem PutcRing.get_eq {cap : Nat} {c : Inst} {b : Byte} {ok : Bool} {r : Ring} (h : PutcRing cap c b ok r) :
    r.get = c.tx.get := by
  obtain ⟨-, -, -, rfl⟩ | ⟨-, -, -, -, rfl⟩ | ⟨-, -, -, -, rfl⟩ | ⟨-, -, rfl⟩ := h <;> rfl

/-- Settles O52: of every change an operation makes to an entry, the fields it leaves and the writer of the others. -/
theorem singleWriter : Obligations.SingleWriter := by
  intro ins s t i h notInit
  simp only [State.bufByte, ring_rx, ring_tx]
  obtain same | change := exec_inst h i
  · simp [same]
  · generalize t.inst i = c at change
    cases change with
    | init cs crnl _ _ => exact absurd rfl (notInit cs crnl)
    | start _ => simp
    | putc b _ r _ ring => simp [ring.get_eq]
    | getc _ _ => simp [poppedRing]
    | guard _ => simp
    | event _ => simp [pushedRing, poppedRing, apply_ite Ring.get, apply_ite Ring.put, apply_ite Ring.buf]

/-! ### Runs from reset (10 R29) -/

/-- What every step of a machine keeps, a run of it keeps. -/
theorem run_keeps (M : Host.Core) {P : M.State → Prop} (keep : ∀ s t, P s → M.step s = .next t → P t) {k : Nat}
    {s t : M.State} (hs : P s) (h : M.run k s = .next t) : P t := by
  induction k generalizing s with
  | zero => cases h; exact hs
  | succ k ih =>
    unfold Host.Core.run at h
    split at h
    · next s' hstep => exact ih (keep s s' hs hstep) h
    · cases h
    · cases h

@[simp] theorem resetWith_params (p : Params) (d : Nat → ResetDraw) : (State.resetWith p d).params = p := by
  simp only [State.params, resetWith_nInst]
  rfl

/-- An entry at reset meets its invariant, whatever ring values in range were drawn: it is inert. -/
theorem reset_instInv {rxCap txCap : Nat} {d : ResetDraw} (hrx : RingInv rxCap d.rx) (htx : RingInv txCap d.tx) :
    InstInv rxCap txCap (Inst.reset d) where
  rx := hrx
  tx := htx
  rxLinked := nofun
  txLinked := nofun
  txEnabled := nofun
  started := nofun
  published := rfl

/-- The invariant holds at reset, in every configuration and for every draw (70 R181). -/
theorem resetWith_inv {p : Params} {d : Nat → ResetDraw} (hp : p.ok = true) (hd : DrawOk p d) :
    Inv (State.resetWith p d) where
  params := by rw [resetWith_params]; exact hp
  insts i hi := by
    rw [resetWith_inst p d (by simpa using hi)]
    exact reset_instInv (hd.rx i) (hd.tx i)

/-- Every state a run from reset reaches meets the invariant. -/
theorem run_reset_inv {p : Params} {d : Nat → ResetDraw} {ws : List PortWord} {answers : List Byte} {k : Nat}
    {t : State} (hp : p.ok = true) (hd : DrawOk p d)
    (h : Host.Core.run Sys2Proof.core k { State.resetWith p d with inputs := ws, halIn := answers } = .next t) :
    Inv t := by
  have start : Inv { State.resetWith p d with inputs := ws, halIn := answers } :=
    inv_of_insts (s := State.resetWith p d) rfl rfl rfl rfl (resetWith_inv hp hd)
  exact run_keeps Sys2Proof.core (P := Inv) (fun _ _ => step_inv) start h

/-- The draw of `State.reset` is one the registers can hold. -/
theorem standard_drawOk {p : Params} (hr : 0 < p.rxCap) (ht : 0 < p.txCap) : DrawOk p ResetDraw.standard :=
  ⟨fun _ => zero_inv hr, fun _ => zero_inv ht⟩

/-- TXEIE outlives the last queued byte: INIT, PUTC, and one event that sends the byte (43 R130, 42 R116). -/
theorem run_sends_last_byte :
    ∃ t, Host.Core.run Sys2Proof.core 3 { State.resetWith Params.cfgT ResetDraw.standard with
        inputs := [.cmd 0x2000, .cmd 0x4041, .evt 0], halIn := [0x80] } = .next t ∧
      (t.inst 0).active = true ∧ (t.inst 0).tx.cnt = 0 ∧ (t.inst 0).txeie = true :=
  ⟨_, rfl, rfl, rfl, rfl⟩

/-- Settles O57: 10 R29 is part of the invariant, which holds along every run from reset; TXEIE falls only at the event
after the one that sends the last byte. -/
theorem queuedBytesKeepTxeie : Obligations.QueuedBytesKeepTxeie := by
  refine ⟨fun p d ws answers k t i hp hd h ha hq => ?_, ?_⟩
  · exact ((run_reset_inv hp hd h).insts i (lt_of_active ha)).txEnabled ha hq
  · obtain ⟨t, h, ha, hc, he⟩ := run_sends_last_byte
    exact ⟨_, _, _, _, 3, t, 0, by decide, standard_drawOk (by decide) (by decide), h, ha, hc, he⟩

/-! ### No word presented (10 R13) -/

/-- Settles O9: of the ways a step can go, only idling has no word to take. -/
theorem nothingPresentedNothingDone : Obligations.NothingPresentedNothingDone := by
  intro s h
  obtain ⟨-, e⟩ | ⟨_, _, _, hw, -⟩ | ⟨_, _, _, hw, -⟩ := step_cases s
  · exact e
  · exact absurd (h.symm.trans hw) nofun
  · exact absurd (h.symm.trans hw) nofun

end Sys2Proof.Machine
end

section
/-! Memory and observations (20): the step of a presented word, the HAL transactions of every operation and who issues
them, and the two first-in first-out laws along every run. -/

namespace Sys2Proof.Machine

/-! ### The step of a presented word (20 R50) -/

/-- Settles O7: of the ways a step can go, only running the decoded operation fits a word that decodes. -/
theorem stepRunsDecodedInstruction : Obligations.StepRunsDecodedInstruction := by
  intro s w rest i hw hd
  obtain ⟨e, -⟩ | ⟨_, _, _, e, hd', -⟩ | ⟨_, _, _, e, hd', hstep⟩ := step_cases s
  · exact absurd (e.symm.trans hw) nofun
  · obtain ⟨rfl, rfl⟩ := List.cons.inj (hw.symm.trans e)
    exact absurd (hd.symm.trans hd') nofun
  · obtain ⟨rfl, rfl⟩ := List.cons.inj (hw.symm.trans e)
    obtain rfl := Except.ok.inj (hd.symm.trans hd')
    exact hstep

/-! ### The transactions an operation issues (20 R44, R46) -/

/-- The transactions of an event on an active instance, in order (42 R122). -/
def eventIssued (i : Nat) (s : State) : List HalTx :=
  [.statusRead i s.nextAnswer] ++
    (if srRxne s.nextAnswer then [.dataRead i s.takeAnswer.nextAnswer] else []) ++
    (if srTxe s.nextAnswer then
      if (s.inst i).tx.cnt = 0 then [.txeieDisable i]
      else [.dataWrite i ((s.inst i).tx.buf.byteAt (s.inst i).tx.get)]
    else [])

/-- The transactions an operation issues, in order. -/
def halIssued (ins : Instr) (s : State) : List HalTx :=
  match ins with
  | .init i _ _ =>
    if i < s.nInst ∧ (s.inst i).active = false then [.lineDisable i, .rxieDisable i, .txeieDisable i] else []
  | .start i => if (s.inst i).active then [.rxieEnable i, .lineEnable i] else []
  | .putc i _ => if (s.inst i).active ∧ (s.inst i).tx.cnt = 0 then [.txeieEnable i] else []
  | .irq i =>
    if s.nInst ≤ i then []
    else if (s.inst i).active then eventIssued i s
    else [.lineDisable i]
  | .gdc | .getc _ | .stat _ _ | .cntrd _ | .cntrst => []

/-- A command that only answers issues no transaction. -/
theorem halIssued_of_onlyAnswer {ins : Instr} {s : State} {r : Rsp} (h : onlyAnswer ins s = some r) :
    halIssued ins s = [] := by
  cases ins with
  | init i cs crnl =>
    refine if_neg fun ⟨hn, ha⟩ => ?_
    simp [onlyAnswer, Nat.not_le.mpr hn, ha] at h
  | start i =>
    refine if_neg fun ha => ?_
    simp [onlyAnswer, Nat.not_le.mpr (lt_of_active ha), ha] at h
  | putc i b =>
    refine if_neg fun ⟨ha, _⟩ => ?_
    simp [onlyAnswer, Nat.not_le.mpr (lt_of_active ha), ha] at h
  | irq i => cases h
  | gdc | getc | stat | cntrd | cntrst => rfl

/-- HALLOG grows at its end by the transactions the operation issues. -/
theorem exec_halLog {ins : Instr} {s t : State} (h : exec ins s = .next t) :
    t.halLog = s.halLog ++ halIssued ins s := by
  obtain ⟨r, hr, rfl⟩ | ⟨i, cs, crnl, rfl, hn, ha, rfl⟩ | ⟨i, rfl, -, ha, rfl⟩ | ⟨i, b, ok, r, rfl, -, ha, effect⟩ |
    ⟨i, rfl, -, -, -, rfl⟩ | ⟨rfl, rfl⟩ | ⟨i, rfl, hn, rfl⟩ | ⟨i, rfl, hn, ha, rfl⟩ | ⟨i, rfl, hn, ha, rfl⟩ :=
    exec_cases h
  · simp [halIssued_of_onlyAnswer hr]
  · simp [halIssued, hn, ha, initDone]
  · simp [halIssued, ha, startDone]
  · simp [halIssued, ha, effect.halLog]
  · simp [halIssued]
  · simp [halIssued]
  · simp [halIssued, hn]
  · simp [halIssued, Nat.not_le.mpr hn, ha, halLineDisable]
  · simp [halIssued, Nat.not_le.mpr hn, ha, eventIssued, irqDone_halLog hn]

/-- The issuers of each transaction (20 R44, last column of the table). -/
inductive IssuedBy : HalTx → Instr → Prop
  | statusRead (i : Nat) (sr : Byte) : IssuedBy (.statusRead i sr) (.irq i)
  | dataRead (i : Nat) (b : Byte) : IssuedBy (.dataRead i b) (.irq i)
  | dataWrite (i : Nat) (b : Byte) : IssuedBy (.dataWrite i b) (.irq i)
  | lineEnable (i : Nat) : IssuedBy (.lineEnable i) (.start i)
  | guardLine (i : Nat) : IssuedBy (.lineDisable i) (.irq i)
  | initLine (i : Nat) (cs crnl : Bool) : IssuedBy (.lineDisable i) (.init i cs crnl)
  | rxieEnable (i : Nat) : IssuedBy (.rxieEnable i) (.start i)
  | rxieDisable (i : Nat) (cs crnl : Bool) : IssuedBy (.rxieDisable i) (.init i cs crnl)
  | txeieEnable (i : Nat) (b : Byte) : IssuedBy (.txeieEnable i) (.putc i b)
  | eventTxeie (i : Nat) : IssuedBy (.txeieDisable i) (.irq i)
  | initTxeie (i : Nat) (cs crnl : Bool) : IssuedBy (.txeieDisable i) (.init i cs crnl)

theorem issuedBy_of_mem_eventIssued {x : HalTx} {i : Nat} {s : State} (h : x ∈ eventIssued i s) :
    IssuedBy x (.irq i) := by
  simp only [eventIssued, List.mem_append, List.mem_singleton] at h
  obtain (rfl | h) | h := h
  · exact .statusRead i _
  · split at h
    · obtain rfl := List.mem_singleton.mp h
      exact .dataRead i _
    · cases h
  · split at h
    · split at h <;> obtain rfl := List.mem_singleton.mp h
      · exact .eventTxeie i
      · exact .dataWrite i _
    · cases h

/-- Every transaction an operation issues is one that 20 R44 lists it for. -/
theorem issuedBy_of_mem {x : HalTx} {ins : Instr} {s : State} (h : x ∈ halIssued ins s) : IssuedBy x ins := by
  cases ins with
  | init i cs crnl =>
    obtain ⟨-, h⟩ := List.mem_ite_nil_right.mp h
    simp only [List.mem_cons, List.not_mem_nil, or_false] at h
    obtain rfl | rfl | rfl := h
    · exact .initLine i cs crnl
    · exact .rxieDisable i cs crnl
    · exact .initTxeie i cs crnl
  | start i =>
    obtain ⟨-, h⟩ := List.mem_ite_nil_right.mp h
    simp only [List.mem_cons, List.not_mem_nil, or_false] at h
    obtain rfl | rfl := h
    · exact .rxieEnable i
    · exact .lineEnable i
  | putc i b =>
    obtain ⟨-, h⟩ := List.mem_ite_nil_right.mp h
    obtain rfl := List.mem_singleton.mp h
    exact .txeieEnable i b
  | irq i =>
    obtain ⟨-, h⟩ := List.mem_ite_nil_left.mp h
    split at h
    · exact issuedBy_of_mem_eventIssued h
    · obtain rfl := List.mem_singleton.mp h
      exact .guardLine i
  | gdc | getc | stat | cntrd | cntrst => cases h

/-- Settles O53: HALLOG grows by the operation's transactions, and each is in its row of the table. -/
theorem halTransactionIssuers : Obligations.HalTransactionIssuers := by
  intro ins s t h
  refine ⟨halIssued ins s, exec_halLog h, fun x hx => ?_⟩
  cases issuedBy_of_mem hx <;> simp

/-! ### What an operation shows of one instance (20 R46, R52) -/

/-- Only an event on the instance writes its data register. -/
theorem wire_halIssued_of_ne {i : Nat} {ins : Instr} {s : State} (h : ins ≠ .irq i) :
    wire i (halIssued ins s) = [] := by
  refine List.filterMap_eq_nil_iff.mpr fun x hx => ?_
  cases issuedBy_of_mem hx with
  | dataWrite k b => exact if_neg fun e => h (congrArg Instr.irq e)
  | _ => rfl

/-- Only an event on the instance reads its data register. -/
theorem dataReads_halIssued_of_ne {i : Nat} {ins : Instr} {s : State} (h : ins ≠ .irq i) :
    dataReads i (halIssued ins s) = [] := by
  refine List.filterMap_eq_nil_iff.mpr fun x hx => ?_
  cases issuedBy_of_mem hx with
  | dataRead k b => exact if_neg fun e => h (congrArg Instr.irq e)
  | _ => rfl

theorem wire_eventIssued (i : Nat) (s : State) :
    wire i (eventIssued i s) =
      if srTxe s.nextAnswer ∧ (s.inst i).tx.cnt ≠ 0 then [(s.inst i).tx.buf.byteAt (s.inst i).tx.get] else [] := by
  have received : wire i (if srRxne s.nextAnswer then [.dataRead i s.takeAnswer.nextAnswer] else []) = [] := by
    split <;> rfl
  unfold eventIssued
  rw [wire_append, wire_append, received]
  cases srTxe s.nextAnswer
  · rfl
  · by_cases empty : (s.inst i).tx.cnt = 0 <;> simp [wire, empty]

theorem dataReads_eventIssued (i : Nat) (s : State) :
    dataReads i (eventIssued i s) = if srRxne s.nextAnswer then [s.takeAnswer.nextAnswer] else [] := by
  have sent : dataReads i (if srTxe s.nextAnswer then
      if (s.inst i).tx.cnt = 0 then [.txeieDisable i]
      else [.dataWrite i ((s.inst i).tx.buf.byteAt (s.inst i).tx.get)]
    else []) = [] := by
    split
    · split <;> rfl
    · rfl
  unfold eventIssued
  rw [dataReads_append, dataReads_append, sent]
  cases srRxne s.nextAnswer
  · rfl
  · simp [dataReads]

/-- An event on an active instance issues the handler's transactions. -/
theorem halIssued_event {i : Nat} {s : State} (ha : (s.inst i).active = true) :
    halIssued (.irq i) s = eventIssued i s := by
  simp [halIssued, Nat.not_le.mpr (lt_of_active ha), ha]

/-- An operation that does nothing to instance `i`: its entry stays, no byte enters or leaves a buffer of it, and none
passes its data register. -/
structure Quiet (i : Nat) (ins : Instr) (s t : State) : Prop where
  inst : t.inst i = s.inst i
  sent : wire i (halIssued ins s) = []
  read : dataReads i (halIssued ins s) = []
  txAccepted : txAccepted i ins s = []
  rxTaken : rxTaken i ins s t = []

/-- An operation that does not name the instance is quiet on it, when it leaves its entry. -/
theorem quiet_of_unnamed {i : Nat} {ins : Instr} {s t : State} (h : ins.instOf ≠ some i) (same : t.inst i = s.inst i) :
    Quiet i ins s t where
  inst := same
  sent := wire_halIssued_of_ne fun e => h (congrArg Instr.instOf e)
  read := dataReads_halIssued_of_ne fun e => h (congrArg Instr.instOf e)
  txAccepted := by
    cases ins with
    | putc k b =>
      have hk : k ≠ i := fun e => h (congrArg some e)
      simp [txAccepted, hk]
    | _ => rfl
  rxTaken := by
    cases ins with
    | getc k => exact if_neg fun e => h (congrArg some e)
    | _ => rfl

/-- A command that only answers is quiet on every instance: a PUTC among them is on an inert one, a GETC an error. -/
theorem quiet_of_onlyAnswer {i : Nat} {ins : Instr} {s : State} {r : Rsp} (h : onlyAnswer ins s = some r) :
    Quiet i ins s (respond r s) where
  inst := rfl
  sent := by rw [halIssued_of_onlyAnswer h]; rfl
  read := by rw [halIssued_of_onlyAnswer h]; rfl
  txAccepted := by
    cases ins with
    | putc k b =>
      refine if_neg fun named => ?_
      obtain ⟨hk, ha⟩ : k = i ∧ (s.inst i).active = true := by simpa using named
      simp [onlyAnswer, hk, Nat.not_le.mpr (lt_of_active ha), ha] at h
    | _ => rfl
  rxTaken := by
    cases ins with
    | getc k =>
      have error : r.err ≠ .ok := by
        simp only [onlyAnswer] at h
        repeat' split at h
        all_goals cases h
        all_goals decide
      simp [rxTaken, error]
    | _ => rfl

/-- A state that differs in one entry, changed as `EntryChange` allows: the operation is quiet elsewhere. -/
theorem quiet_or_change_of_update {ins : Instr} {s t : State} {i k : Nat} {c : Inst} (named : ins.instOf = some k)
    (ht : ∀ j, t.inst j = if j = k then c else s.inst j) (hc : EntryChange s k ins c) :
    Quiet i ins s t ∨ EntryChange s i ins (t.inst i) := by
  by_cases hi : i = k
  · subst hi
    rw [ht, if_pos rfl]
    exact .inr hc
  · refine .inl (quiet_of_unnamed ?_ (by rw [ht, if_neg hi]))
    rw [named]
    exact fun e => hi (Option.some.inj e).symm

/-- Of every instance an operation is quiet, or changes its entry in one of the ways of `EntryChange`. -/
theorem exec_quiet_or_change {ins : Instr} {s t : State} (h : exec ins s = .next t) (i : Nat) :
    Quiet i ins s t ∨ EntryChange s i ins (t.inst i) := by
  obtain ⟨r, hr, rfl⟩ | ⟨k, cs, crnl, rfl, hn, ha, rfl⟩ | ⟨k, rfl, hn, ha, rfl⟩ | ⟨k, b, ok, r, rfl, -, ha, effect⟩ |
    ⟨k, rfl, hn, ha, hc, rfl⟩ | ⟨rfl, rfl⟩ | ⟨k, rfl, hn, rfl⟩ | ⟨k, rfl, hn, ha, rfl⟩ | ⟨k, rfl, hn, ha, rfl⟩ :=
    exec_cases h
  · exact .inl (quiet_of_onlyAnswer hr)
  · exact quiet_or_change_of_update rfl (initDone_inst hn) (.init cs crnl hn ha)
  · exact quiet_or_change_of_update rfl (startDone_inst hn) (.start ha)
  · exact quiet_or_change_of_update rfl effect.inst (.putc b ok r ha effect.ring)
  · exact quiet_or_change_of_update rfl (fun j => inst_setInst s k j _ hn) (.getc ha hc)
  · exact .inl (quiet_of_unnamed nofun rfl)
  · have silent : halIssued (.irq k) t = [] := if_pos hn
    exact .inl ⟨rfl, by rw [silent]; rfl, by rw [silent]; rfl, rfl, rfl⟩
  · exact quiet_or_change_of_update rfl (halLineDisable_inst hn) (.guard ha)
  · exact quiet_or_change_of_update rfl (irqDone_inst hn) (.event ha)

/-- The queued bytes after an operation: those of the new entry, at the capacity that stays. -/
theorem queued_next {ins : Instr} {s t : State} (h : exec ins s = .next t) (d : Dir) (i : Nat) :
    queued d i t = if (t.inst i).active then ((t.inst i).ring d).contents (s.cap d) else [] := by
  have hp := exec_params h
  rw [queued, cap_congr (congrArg Params.rxCap hp) (congrArg Params.txCap hp)]

theorem queued_inert {d : Dir} {i : Nat} {s : State} (h : (s.inst i).active = false) : queued d i s = [] := by
  simp [queued, h]

theorem queued_active {d : Dir} {i : Nat} {s : State} (h : (s.inst i).active = true) :
    queued d i s = ((s.inst i).ring d).contents (s.cap d) := if_pos h

/-! ### Transmission, first in, first out (20 R52) -/

/-- The bytes of PUTC with room enough: the byte, after a carriage return where it is translated (43 R131). -/
theorem putcBytes_eq (c : Inst) (b : Byte) :
    putcBytes c.cfgCrnl b = if translates c b then [carriageReturn, b] else [b] := by
  by_cases h : translates c b = true
  · obtain ⟨hc, rfl⟩ := (translates_iff c b).mp h
    simp [putcBytes, translates, lineFeed, carriageReturn, hc]
  · rw [if_neg h]
    exact if_neg h

/-- PUTC appends to the queued bytes as many of its bytes as there is room for (43 R131). -/
theorem PutcRing.contents {cap : Nat} {c : Inst} {b : Byte} {ok : Bool} {r : Ring} (h : PutcRing cap c b ok r)
    (hi : RingInv cap c.tx) (hl : RingLinked cap c.tx) :
    r.contents cap = c.tx.contents cap ++ (putcBytes c.cfgCrnl b).take (cap - c.tx.cnt) := by
  have hle := hi.cnt_le
  rw [putcBytes_eq]
  obtain ⟨-, htr, room, rfl⟩ | ⟨-, htr, room, room2, rfl⟩ | ⟨-, htr, room, last, rfl⟩ | ⟨-, full, rfl⟩ := h
  · rw [contents_pushed b hi hl room, htr, List.take_of_length_le]
    · rfl
    · show 1 ≤ cap - c.tx.cnt; omega
  · rw [contents_pushed b (pushed_inv _ hi room) (pushed_linked _ hl) room2, contents_pushed _ hi hl room, htr,
      List.take_of_length_le]
    · simp
    · show 2 ≤ cap - c.tx.cnt; omega
  · have one : cap - c.tx.cnt = 1 := by omega
    rw [contents_pushed _ hi hl room, htr, one]
    rfl
  · simp [full]

/-- One operation keeps transmission in order: queued, then pushed, is sent, then still queued. -/
theorem exec_transmit_fifo {ins : Instr} {s t : State} (hs : Inv s) (h : exec ins s = .next t) (i : Nat) :
    queued .tx i s ++ txAccepted i ins s = wire i (halIssued ins s) ++ queued .tx i t := by
  rw [queued_next h .tx i]
  obtain quiet | change := exec_quiet_or_change h i
  · rw [quiet.txAccepted, quiet.sent, quiet.inst]
    simp [queued]
  · generalize t.inst i = c at change
    cases change with
    | init cs crnl _ inert =>
      have empty : (clearedRing s.txCap (s.inst i).tx).contents s.txCap = [] := contents_of_empty rfl
      simp [wire_halIssued_of_ne, queued_inert inert, txAccepted, empty]
    | start _ => simp [wire_halIssued_of_ne, queued, txAccepted]
    | putc b ok r active ring =>
      have appended := ring.contents (hs.insts i (lt_of_active active)).tx (hs.linked active .tx)
      simp [wire_halIssued_of_ne, queued_active active, txAccepted, active, appended]
    | getc _ _ => simp [wire_halIssued_of_ne, queued, txAccepted]
    | guard inert => simp [halIssued, inert, queued_inert inert, txAccepted, wire]
    | event active =>
      rw [halIssued_event active, wire_eventIssued, queued_active active]
      by_cases sends : srTxe s.nextAnswer = true ∧ (s.inst i).tx.cnt ≠ 0
      · have oldest := contents_popped (hs.insts i (lt_of_active active)).tx sends.2
        simp [sends, active, txAccepted, oldest]
      · simp [sends, active, txAccepted]

/-! ### Reception, first in, first out (20 R52) -/

/-- The received bytes an operation stores: what it reads from the data register, with room for it. -/
theorem rxAccepted_eq {ins : Instr} {s t : State} (h : exec ins s = .next t) (i : Nat) :
    rxAccepted i s t = if (s.inst i).rx.cnt < s.rxCap then dataReads i (halIssued ins s) else [] := by
  rw [rxAccepted, exec_halLog h, List.drop_left]

/-- A GETC that finds a byte answers the oldest one, unchanged by the widening to the result word. -/
theorem rxTaken_getc {i : Nat} {s t : State} (h : exec (.getc i) s = .next t) (ha : (s.inst i).active = true)
    (hc : (s.inst i).rx.cnt ≠ 0) :
    rxTaken i (.getc i) s t = [(s.inst i).rx.buf.byteAt (s.inst i).rx.get] := by
  simp only [exec, execGetc, onActive_active _ (lt_of_active ha) ha] at h
  obtain ⟨empty, -⟩ | ⟨-, rfl⟩ := getcActive_cases h
  · exact absurd empty hc
  · simp [rxTaken, zextByte]

/-- One operation keeps reception in order: queued, then stored, is answered by GETC, then still queued. -/
theorem exec_receive_fifo {ins : Instr} {s t : State} (hs : Inv s) (h : exec ins s = .next t) (i : Nat) :
    queued .rx i s ++ rxAccepted i s t = rxTaken i ins s t ++ queued .rx i t := by
  rw [queued_next h .rx i, rxAccepted_eq h i]
  obtain quiet | change := exec_quiet_or_change h i
  · rw [quiet.read, quiet.rxTaken, quiet.inst]
    simp [queued]
  · generalize t.inst i = c at change
    cases change with
    | init cs crnl _ inert =>
      have empty : (clearedRing s.rxCap (s.inst i).rx).contents s.rxCap = [] := contents_of_empty rfl
      simp [dataReads_halIssued_of_ne, queued_inert inert, rxTaken, empty]
    | start _ => simp [dataReads_halIssued_of_ne, queued, rxTaken]
    | putc b ok r _ _ => simp [dataReads_halIssued_of_ne, queued, rxTaken]
    | getc active nonempty =>
      have oldest := contents_popped (hs.insts i (lt_of_active active)).rx nonempty
      simp [dataReads_halIssued_of_ne, rxTaken_getc h active nonempty, queued_active active, active, oldest]
    | guard inert => simp [halIssued, inert, queued_inert inert, rxTaken, dataReads]
    | event active =>
      have hi := (hs.insts i (lt_of_active active)).rx
      rw [halIssued_event active, dataReads_eventIssued, queued_active active]
      by_cases stores : srRxne s.nextAnswer = true ∧ (s.inst i).rx.cnt ≠ s.rxCap
      · have room : (s.inst i).rx.cnt < s.rxCap := Nat.lt_of_le_of_ne hi.cnt_le stores.2
        have appended := contents_pushed s.takeAnswer.nextAnswer hi (hs.linked active .rx) stores.2
        simp [stores, active, rxTaken, room, appended]
      · have dropped : (if (s.inst i).rx.cnt < s.rxCap then
            if srRxne s.nextAnswer then [s.takeAnswer.nextAnswer] else [] else []) = [] := by
          split
          · next room => exact if_neg fun hx => stores ⟨hx, Nat.ne_of_lt room⟩
          · rfl
        simp [stores, active, rxTaken, dropped]

/-! ### Both laws along a run -/

/-- A run that completes is its first operation, then the run of the others. -/
theorem execAll_cons {ins : Instr} {ops : List Instr} {s u : State} (h : execAll (ins :: ops) s = .next u) :
    ∃ t, exec ins s = .next t ∧ execAll ops t = .next u := by
  unfold execAll at h
  split at h
  · next t ht => exact ⟨t, ht, h⟩
  · cases h
  · cases h

theorem txIn_cons {ins : Instr} {s t : State} (h : exec ins s = .next t) (i : Nat) (ops : List Instr) :
    txIn i (ins :: ops) s = txAccepted i ins s ++ txIn i ops t := by simp [txIn, h]

theorem rxIn_cons {ins : Instr} {s t : State} (h : exec ins s = .next t) (i : Nat) (ops : List Instr) :
    rxIn i (ins :: ops) s = rxAccepted i s t ++ rxIn i ops t := by simp [rxIn, h]

theorem rxOut_cons {ins : Instr} {s t : State} (h : exec ins s = .next t) (i : Nat) (ops : List Instr) :
    rxOut i (ins :: ops) s = rxTaken i ins s t ++ rxOut i ops t := by simp [rxOut, h]

/-- Settles O58, by induction on the run: each operation keeps the order, and the wire grows at its end. -/
theorem transmitFifo : Obligations.TransmitFifo := by
  intro i ops
  induction ops with
  | nil =>
    intro s u _ h
    obtain rfl := next_inj h
    exact ⟨[], by simp, by simp [txIn]⟩
  | cons ins ops ih =>
    intro s u hs h
    obtain ⟨t, first, rest⟩ := execAll_cons h
    obtain ⟨w, sent, order⟩ := ih t u (exec_inv hs first) rest
    refine ⟨wire i (halIssued ins s) ++ w, ?_, ?_⟩
    · rw [sent, exec_halLog first, wire_append, List.append_assoc]
    · rw [txIn_cons first, ← List.append_assoc, exec_transmit_fifo hs first, List.append_assoc, order,
        List.append_assoc]

/-- Settles O59, by induction on the run: each operation keeps the order. -/
theorem receiveFifo : Obligations.ReceiveFifo := by
  intro i ops
  induction ops with
  | nil =>
    intro s u _ h
    obtain rfl := next_inj h
    simp [rxIn, rxOut]
  | cons ins ops ih =>
    intro s u hs h
    obtain ⟨t, first, rest⟩ := execAll_cons h
    rw [rxIn_cons first, rxOut_cons first, ← List.append_assoc, exec_receive_fifo hs first, List.append_assoc,
      ih t u (exec_inv hs first) rest, List.append_assoc]

end Sys2Proof.Machine
end

section
/-! Encoding (30): the rows of the opcode map as a relation, decode and encode in both directions, the reserved codes and
the ignored bits, the words of the table and of a response, and the one response of a command. -/

namespace Sys2Proof

/-! ### The rows of the opcode map (30 R62) -/

/-- The operation of row `op` of 30 R62, with the operands 30 R66 to R69 read from `inst` and `arg`. -/
inductive CommandRow (inst : Nat) (arg : Byte) : Nat → Instr → Prop
  | gdc : CommandRow inst arg 1 .gdc
  | init : CommandRow inst arg 2 (.init inst (csField arg) (crnlField arg))
  | start : CommandRow inst arg 3 (.start inst)
  | putc : CommandRow inst arg 4 (.putc inst arg)
  | getc : CommandRow inst arg 5 (.getc inst)
  | stat : CommandRow inst arg 6 (.stat inst (selField arg))
  | cntrd : CommandRow inst arg 7 (.cntrd (counterField arg))
  | cntrst : CommandRow inst arg 8 .cntrst

/-- The operation code alone says whether a command word has a row. -/
theorem decode_cmd_cases (w : BitVec 16) :
    (∃ i, CommandRow (instField w) (argField w) (opField w) i ∧ decode (.cmd w) = .ok i) ∨
    ((opField w = 0 ∨ 9 ≤ opField w) ∧ decode (.cmd w) = .error (.reservedOpcode (opField w))) := by
  rw [decode, decodeCommand]
  split
  case h_9 =>
    right
    exact ⟨by grind, rfl⟩
  all_goals
    rename_i op
    rw [op]
    exact .inl ⟨_, by constructor, rfl⟩

theorem CommandRow.op_range {inst op : Nat} {arg : Byte} {i : Instr} (row : CommandRow inst arg op i) :
    1 ≤ op ∧ op ≤ 8 := by
  cases row <;> decide

theorem decode_cmd_eq_ok_iff {w : BitVec 16} {i : Instr} :
    decode (.cmd w) = .ok i ↔ CommandRow (instField w) (argField w) (opField w) i := by
  constructor
  · intro h
    obtain ⟨j, row, e⟩ | ⟨-, e⟩ := decode_cmd_cases w
    · exact Except.ok.inj (e.symm.trans h) ▸ row
    · exact absurd (e.symm.trans h) nofun
  · generalize op : opField w = n
    intro row
    cases row <;> simp [decode, decodeCommand, op]

theorem decode_cmd_eq_error_iff {w : BitVec 16} {e : DecodeError} :
    decode (.cmd w) = .error e ↔ (opField w = 0 ∨ 9 ≤ opField w) ∧ e = .reservedOpcode (opField w) := by
  obtain ⟨i, row, h⟩ | ⟨reserved, h⟩ := decode_cmd_cases w
  · have := row.op_range
    simp only [h, reduceCtorEq, false_iff]
    omega
  · simp only [h, reserved, Except.error.injEq, true_and, eq_comm (b := e)]

/-! ### Decode of encode -/

/-- An assembled word decodes to the operation of the row it was assembled for. -/
theorem CommandRow.decode_commandWord {op inst : Nat} {arg : Byte} {i : Instr} (row : CommandRow inst arg op i)
    (hi : inst < 16) : decode (commandWord op inst arg) = .ok i := by
  have ho : op < 16 := Nat.lt_of_le_of_lt row.op_range.2 (by decide)
  rw [commandWord, decode_cmd_eq_ok_iff, instField_commandWord arg ho hi, argField_commandWord arg ho hi,
    opField_commandWord arg ho hi]
  exact row

theorem counterField_ofNat {k : Nat} (h : k < 8) : counterField (BitVec.ofNat 8 k) = k := by
  simp only [counterField, BitVec.extractLsb'_toNat, BitVec.toNat_ofNat, Nat.shiftRight_zero]
  omega

/-- The row of `init`, read from its assembled operand byte. -/
theorem commandRow_init (i : Nat) (cs crnl : Bool) : CommandRow i (configArg cs crnl) 2 (.init i cs crnl) := by
  simpa only [csField_configArg, crnlField_configArg] using CommandRow.init (inst := i) (arg := configArg cs crnl)

/-- The row of `stat`, read from its assembled operand byte. -/
theorem commandRow_stat (i : Nat) (sel : StatSel) : CommandRow i (selArg sel) 6 (.stat i sel) := by
  simpa only [selField_selArg] using CommandRow.stat (inst := i) (arg := selArg sel)

/-- The row of `cntrd`, read from its assembled operand byte. -/
theorem commandRow_cntrd {k : Nat} (h : k < 8) : CommandRow 0 (BitVec.ofNat 8 k) 7 (.cntrd k) := by
  simpa only [counterField_ofNat h] using CommandRow.cntrd (inst := 0) (arg := BitVec.ofNat 8 k)

/-- Settles O2: each canonical command word is assembled for its operation's row; an event word is the instance. -/
theorem decodeEncodeRoundTrip : Obligations.DecodeEncodeRoundTrip := by
  intro i wf
  cases i with
  | gdc => exact CommandRow.gdc.decode_commandWord (by decide)
  | init i cs crnl => exact (commandRow_init i cs crnl).decode_commandWord (of_decide_eq_true wf)
  | start i => exact CommandRow.start.decode_commandWord (of_decide_eq_true wf)
  | putc i b => exact CommandRow.putc.decode_commandWord (of_decide_eq_true wf)
  | getc i => exact CommandRow.getc.decode_commandWord (of_decide_eq_true wf)
  | stat i sel => exact (commandRow_stat i sel).decode_commandWord (of_decide_eq_true wf)
  | cntrd k => exact (commandRow_cntrd (of_decide_eq_true wf)).decode_commandWord (by decide)
  | cntrst => exact CommandRow.cntrst.decode_commandWord (by decide)
  | irq i =>
    have fits : i < 16 := of_decide_eq_true wf
    simp [encode, decode, decodeEvent, Nat.mod_eq_of_lt fits]

/-! ### Encode of decode, and the ignored bits (30 R73) -/

theorem instField_lt (w : BitVec 16) : instField w < 16 := (w.extractLsb' 8 4).isLt

theorem opField_and (w m : BitVec 16) : opField (w &&& m) = opField w &&& opField m := by
  simp [opField, BitVec.extractLsb'_and]

theorem instField_and (w m : BitVec 16) : instField (w &&& m) = instField w &&& instField m := by
  simp [instField, BitVec.extractLsb'_and]

theorem argField_and (w m : BitVec 16) : argField (w &&& m) = argField w &&& argField m := by
  simp [argField, BitVec.extractLsb'_and]

/-- A field of four bits is kept by a mask of four ones. -/
theorem and_fifteen {n : Nat} (h : n < 16) : n &&& 15 = n := Nat.and_two_pow_sub_one_of_lt_two_pow (n := 4) h

/-- Every mask keeps the four bits of the operation code (30 R73). -/
theorem opField_usedMask (op : Nat) : opField (usedMask op) = 15 := by
  unfold usedMask
  split <;> rfl

theorem opField_and_usedMask (w : BitVec 16) (op : Nat) : opField (w &&& usedMask op) = opField w := by
  rw [opField_and, opField_usedMask, and_fifteen (opField_lt w)]

/-- A command word is assembled from its three fields. -/
theorem commandWord_fields (w : BitVec 16) : commandWord (opField w) (instField w) (argField w) = .cmd w := by
  have := w.isLt
  refine congrArg PortWord.cmd (BitVec.eq_of_toNat_eq ?_)
  rw [toNat_commandWord _ (opField_lt w) (instField_lt w), opField_eq, instField_eq, argField_toNat]
  omega

/-- Clearing the ignored bits of a word masks its instance and its operand byte. -/
theorem canonicalWord_cmd (w : BitVec 16) : canonicalWord (.cmd w) =
    commandWord (opField w) (instField w &&& instField (usedMask (opField w)))
      (argField w &&& argField (usedMask (opField w))) := by
  rw [canonicalWord, ← commandWord_fields (w &&& _), opField_and_usedMask, instField_and, argField_and]

/-- INIT's operand byte assembled from its two flags: bits 1:0. -/
theorem configArg_fields (arg : Byte) : configArg (csField arg) (crnlField arg) = arg &&& 3 := by
  apply BitVec.eq_of_toNat_eq
  have mask : (arg &&& 3).toNat = arg.toNat % 4 := Nat.and_two_pow_sub_one_eq_mod arg.toNat 2
  have bit (n : Nat) : (arg.getLsbD n).toNat = arg.toNat / 2 ^ n % 2 := by
    rw [BitVec.getLsbD, Nat.toNat_testBit]
  simp only [configArg, csField, crnlField, BitVec.toNat_ofNat, bit, mask]
  omega

/-- STAT's selector and INIT's flags are the same two bits. -/
theorem selArg_selField (arg : Byte) : selArg (selField arg) = arg &&& 3 := by
  rw [← configArg_fields]
  unfold selField csField crnlField
  cases arg.getLsbD 1 <;> cases arg.getLsbD 0 <;> rfl

theorem ofNat_counterField (arg : Byte) : BitVec.ofNat 8 (counterField arg) = arg &&& 7 := by
  apply BitVec.eq_of_toNat_eq
  have mask : (arg &&& 7).toNat = arg.toNat % 8 := Nat.and_two_pow_sub_one_eq_mod arg.toNat 3
  simp only [counterField, BitVec.toNat_ofNat, BitVec.extractLsb'_toNat, Nat.shiftRight_zero, mask]
  omega

/-- The canonical word of a row's operation is the row's word with the ignored bits cleared. -/
theorem CommandRow.encode_eq {inst op : Nat} {arg : Byte} {i : Instr} (row : CommandRow inst arg op i)
    (hi : inst < 16) :
    encode i = commandWord op (inst &&& instField (usedMask op)) (arg &&& argField (usedMask op)) := by
  have keep : inst &&& 15 = inst := and_fifteen hi
  cases row with
  | gdc => exact congrArg₂ (commandWord 1) (Nat.and_zero inst).symm BitVec.and_zero.symm
  | init => exact congrArg₂ (commandWord 2) keep.symm (configArg_fields arg)
  | start => exact congrArg₂ (commandWord 3) keep.symm BitVec.and_zero.symm
  | putc => exact congrArg₂ (commandWord 4) keep.symm BitVec.and_allOnes.symm
  | getc => exact congrArg₂ (commandWord 5) keep.symm BitVec.and_zero.symm
  | stat => exact congrArg₂ (commandWord 6) keep.symm (selArg_selField arg)
  | cntrd => exact congrArg₂ (commandWord 7) (Nat.and_zero inst).symm (ofNat_counterField arg)
  | cntrst => exact congrArg₂ (commandWord 8) (Nat.and_zero inst).symm BitVec.and_zero.symm

theorem CommandRow.wf {inst op : Nat} {arg : Byte} {i : Instr} (row : CommandRow inst arg op i) (hi : inst < 16) :
    i.wf = true := by
  cases row with
  | gdc | cntrst => rfl
  | cntrd => exact decide_eq_true (counterField_lt arg)
  | init | start | putc | getc | stat => exact decide_eq_true hi

/-- Settles O3: on the command port row by row, on the event port because a word is the instance. -/
theorem encodeDecodeCanonical : Obligations.EncodeDecodeCanonical := by
  intro w i h
  cases w with
  | cmd w =>
    have row := decode_cmd_eq_ok_iff.1 h
    exact ⟨row.wf (instField_lt w), (row.encode_eq (instField_lt w)).trans (canonicalWord_cmd w).symm⟩
  | evt w =>
    obtain rfl := Except.ok.inj h
    exact ⟨decide_eq_true w.isLt, by simp [decodeEvent, encode, canonicalWord]⟩

/-- The ignored bits of a word do not change what it decodes to. -/
theorem decode_and_usedMask (w : BitVec 16) : decode (.cmd (w &&& usedMask (opField w))) = decode (.cmd w) := by
  cases h : decode (.cmd w) with
  | ok i =>
    obtain ⟨wf, canonical⟩ := encodeDecodeCanonical _ i h
    have back := decodeEncodeRoundTrip i wf
    rwa [canonical] at back
  | error e =>
    rw [decode_cmd_eq_error_iff] at h ⊢
    rwa [opField_and_usedMask]

/-- Settles O5: words that agree on the used bits have one operation code, and each decodes as its used bits do. -/
theorem ignoredBitsDoNotMatter : Obligations.IgnoredBitsDoNotMatter := by
  intro w v h
  have op : opField w = opField v := by
    rw [← opField_and_usedMask w (opField w), h, opField_and_usedMask]
  rw [← decode_and_usedMask w, h, op, decode_and_usedMask v]

/-! ### Reserved operation codes, and words written out (30 R62, R63, R74) -/

/-- Settles O4: the operation code is the word's number over 4096. -/
theorem reservedOpcodesAlone : Obligations.ReservedOpcodesAlone := by
  intro w
  simp [decode_cmd_eq_error_iff, opField_eq]

/-- Settles O1, word by word. -/
theorem specWordsDecode : Obligations.SpecWordsDecode :=
  ⟨rfl, rfl, rfl, rfl, rfl, rfl, rfl, rfl, rfl, rfl, rfl, rfl⟩

theorem decodeTableWord_eq_some {nbits w : Nat} {i : Instr} (h : decodeTableWord nbits w = some i) :
    ∃ p, portWord nbits w = some p ∧ decode p = .ok i := by
  unfold decodeTableWord at h
  cases hp : portWord nbits w with
  | none => simp [hp] at h
  | some p =>
    cases hd : decode p with
    | error e => simp [hp, hd] at h
    | ok j =>
      have same : j = i := by simpa [hp, hd] using h
      exact ⟨p, rfl, same ▸ hd⟩

end Sys2Proof

namespace Sys2Proof.Machine

/-- Settles O8: of the ways a step can go, only the rejection fits a word with a reserved operation code. -/
theorem reservedCommandRejected : Obligations.ReservedCommandRejected := by
  intro s w rest hw reserved
  obtain ⟨e, hd⟩ := (reservedOpcodesAlone w).2 reserved
  obtain ⟨empty, -⟩ | ⟨_, _, _, taken, -, e⟩ | ⟨_, _, _, taken, hd', -⟩ := step_cases s
  · exact absurd (empty.symm.trans hw) nofun
  · obtain ⟨-, rfl⟩ := List.cons.inj (hw.symm.trans taken)
    exact e
  · obtain ⟨rfl, -⟩ := List.cons.inj (hw.symm.trans taken)
    exact absurd (hd.symm.trans hd') nofun

theorem withFetchWord_of_portWord {nbits w : Nat} {p : PortWord} (h : portWord nbits w = some p) (s : State) :
    s.withFetchWord nbits w = presentFirst p s := by
  simp [State.withFetchWord, h]

/-- Settles O10: the port word is presented first, so the step takes it and leaves the state it was presented in. -/
theorem presentedTableWordRuns : Obligations.PresentedTableWordRuns := by
  intro s nbits w i h
  obtain ⟨p, hp, hd⟩ := decodeTableWord_eq_some h
  rw [withFetchWord_of_portWord hp]
  exact stepRunsDecodedInstruction (presentFirst p s) p s.inputs i rfl hd

/-! ### Responses (30 R60, R64, R72) -/

theorem ErrCode.code_lt (e : ErrCode) : e.code < 8 := by cases e <;> decide

/-- `err` stands above the 16 bits of `val`, and nothing is cut off. -/
theorem Rsp.toNat_word (r : Rsp) : r.word.toNat = r.err.code * 65536 + r.val.toNat := by
  have := r.err.code_lt
  have := r.val.isLt
  rw [Rsp.word, BitVec.toNat_ofNat]
  omega

/-- Settles O6: the layout, at each of the five error numbers. -/
theorem responseWordLayout : Obligations.ResponseWordLayout := fun v =>
  ⟨(Rsp.toNat_word ⟨.ok, v⟩).trans (by simp [ErrCode.code]), Rsp.toNat_word ⟨.invalidArgument, v⟩,
    Rsp.toNat_word ⟨.invalidState, v⟩, Rsp.toNat_word ⟨.badInstance, v⟩, Rsp.toNat_word ⟨.overrun, v⟩⟩

/-- Settles O11: GDC only answers. -/
theorem gdcAnswersDefault : Obligations.GdcAnswersDefault := fun _ => exec_onlyAnswer rfl

/-- The response log after an operation: an event leaves it; a command adds one response, an error with the value 0. -/
theorem exec_rspLog {ins : Instr} {s t : State} (h : exec ins s = .next t) :
    (∃ i, ins = .irq i ∧ t.rspLog = s.rspLog) ∨
    ((∀ i, ins ≠ .irq i) ∧ ∃ r : Rsp, t.rspLog = s.rspLog ++ [r] ∧ (r.err ≠ .ok → r.val = 0)) := by
  obtain ⟨r, hr, rfl⟩ | ⟨i, cs, crnl, rfl, -, -, rfl⟩ | ⟨i, rfl, -, -, rfl⟩ | ⟨i, b, ok, r, rfl, -, -, effect⟩ |
    ⟨i, rfl, -, -, -, rfl⟩ | ⟨rfl, rfl⟩ | ⟨i, rfl, -, rfl⟩ | ⟨i, rfl, -, -, rfl⟩ | ⟨i, rfl, -, -, rfl⟩ := exec_cases h
  · exact .inr ⟨onlyAnswer_ne_irq hr, r, rfl, onlyAnswer_val hr⟩
  · exact .inr ⟨nofun, _, rfl, fun _ => rfl⟩
  · exact .inr ⟨nofun, _, rfl, fun _ => rfl⟩
  · exact .inr ⟨nofun, _, effect.rspLog, fun _ => rfl⟩
  · exact .inr ⟨nofun, _, rfl, fun error => absurd rfl error⟩
  · exact .inr ⟨nofun, _, rfl, fun _ => rfl⟩
  · exact .inl ⟨i, rfl, rfl⟩
  · exact .inl ⟨i, rfl, rfl⟩
  · exact .inl ⟨i, rfl, irqDone_rspLog i s⟩

/-- Settles O54, from what an operation leaves in the response log. -/
theorem oneResponsePerCommand : Obligations.OneResponsePerCommand := by
  intro ins s t h
  obtain ⟨i, rfl, same⟩ | ⟨command, answered⟩ := exec_rspLog h
  · exact ⟨fun _ => same, fun command => absurd rfl (command i)⟩
  · exact ⟨fun ⟨i, event⟩ => absurd event (command i), fun _ => answered⟩

end Sys2Proof.Machine
end

section
/-! Instance Registry (40): what INIT and START do, what they refuse, and the life cycle of an instance. -/

namespace Sys2Proof.Machine

/-! ### INIT (40 R91) -/

theorem execInit_inert {i : Nat} {s : State} (cs crnl : Bool) (hn : i < s.nInst) (inert : (s.inst i).active = false) :
    execInit i cs crnl s = .next (respond ⟨.ok, 0⟩ (initDone i cs crnl s)) := by
  obtain ⟨h, -⟩ | ⟨-, h, -⟩ | ⟨-, -, e⟩ := execInit_cases i cs crnl s
  · exact absurd hn (Nat.not_lt.mpr h)
  · exact absurd h (by simp [inert])
  · exact e

/-- Settles O12: the new entry is INIT's, and its two arrays are the old ones zero-filled. -/
theorem initBindsAndClears : Obligations.InitBindsAndClears := by
  intro s i cs crnl hs hn inert
  exact ⟨zeroFill s.rxCap (s.inst i).rx.buf, zeroFill s.txCap (s.inst i).tx.buf, execInit_inert cs crnl hn inert,
    zeroFill_byteAt (hs.insts i hn).rx.wf s.rxCap, zeroFill_byteAt (hs.insts i hn).tx.wf s.txCap⟩

/-- Settles O13: a refused INIT only answers. -/
theorem initRefusals : Obligations.InitRefusals := by
  intro s i cs crnl
  constructor
  · intro outOfRange
    exact exec_onlyAnswer (if_pos outOfRange)
  · intro hn active
    exact exec_onlyAnswer ((if_neg (Nat.not_le.mpr hn)).trans (if_pos active))

/-! ### START (40 R92) -/

theorem execStart_active {i : Nat} {s : State} (hn : i < s.nInst) (active : (s.inst i).active = true) :
    execStart i s = .next (respond ⟨.ok, 0⟩ (startDone i s)) := by
  rw [execStart, onActive_active _ hn active, publish_start hn, answerOk]

/-- Settles O14: behind the shared checks START writes the entry and issues the two transactions. -/
theorem startEnablesReception : Obligations.StartEnablesReception :=
  fun _ _ hn active => execStart_active hn active

/-! ### The checks START, PUTC and GETC share (60 R155) -/

theorem onActive_outOfRange {i : Nat} {s : State} (body : Result) (h : s.nInst ≤ i) :
    onActive i s body = .next (respond ⟨.invalidArgument, 0⟩ s) := if_pos h

theorem onActive_inert {i : Nat} {s : State} (body : Result) (hn : i < s.nInst) (inert : (s.inst i).active = false) :
    onActive i s body = .next (respond ⟨.badInstance, 0⟩ s) :=
  (if_neg (Nat.not_le.mpr hn)).trans (if_pos inert)

theorem exec_eq_onActive {i : Nat} {b : Byte} {ins : Instr} (h : ins = .start i ∨ ins = .putc i b ∨ ins = .getc i)
    (s : State) : ∃ body, exec ins s = onActive i s body := by
  obtain rfl | rfl | rfl := h <;> exact ⟨_, rfl⟩

/-- Settles O15: each of the three operations is a body behind the shared checks, which refuse before it runs. -/
theorem inertInstanceRefused : Obligations.InertInstanceRefused := by
  intro s i b ins h
  obtain ⟨body, e⟩ := exec_eq_onActive h s
  rw [e]
  exact ⟨onActive_outOfRange body, onActive_inert body⟩

/-! ### The life cycle of an instance (40 R93) -/

theorem lifeCycle_inert {c : Inst} (h : c.active = false) : c.lifeCycle = .inert := if_pos h

theorem lifeCycle_initialized {c : Inst} (active : c.active = true) (line : c.lineEn = false) :
    c.lifeCycle = .initialized := by
  simp [Inst.lifeCycle, active, line]

theorem lifeCycle_started {c : Inst} (active : c.active = true) (line : c.lineEn = true) : c.lifeCycle = .started := by
  simp [Inst.lifeCycle, active, line]

/-- The condition of an instance depends on ACTIVE and LINE_EN alone. -/
theorem lifeCycle_congr {c e : Inst} (active : e.active = c.active) (lineEn : e.lineEn = c.lineEn) :
    e.lifeCycle = c.lifeCycle := by
  simp only [Inst.lifeCycle, active, lineEn]

/-- Settles O49: of every change an operation makes to an entry, only INIT's and START's move its condition; an event on
an inert instance clears LINE_EN, and the instance stays inert. -/
theorem lifeCycleOneWay : Obligations.LifeCycleOneWay := by
  intro ins s t j _ h
  obtain same | change := exec_inst h j
  · exact .inl (by rw [same])
  · generalize t.inst j = c at change ⊢
    cases change with
    | init cs crnl _ inert => exact .inr (.inl ⟨lifeCycle_inert inert, rfl, cs, crnl, rfl⟩)
    | start active =>
      cases line : (s.inst j).lineEn with
      | false => exact .inr (.inr ⟨lifeCycle_initialized active line, lifeCycle_started active rfl, rfl⟩)
      | true =>
        refine .inl ?_
        rw [lifeCycle_started active line]
        exact lifeCycle_started active rfl
    | guard inert =>
      refine .inl ?_
      rw [lifeCycle_inert inert]
      exact lifeCycle_inert inert
    | putc | getc | event => exact .inl (lifeCycle_congr rfl rfl)

end Sys2Proof.Machine
end

section
/-! Ring buffers (41): the two primitives on an instance's buffers, a run of them against the plain queue of R104, and
the one way a counter rises. -/

namespace Sys2Proof.Machine

/-! ### A run of primitives, one primitive at a time (41 R104) -/

theorem ringRun_push {d : Dir} {cap : Nat} {b : Byte} {ops : List RingOp} {r r' : Ring} {o : Option Ring}
    {as : List RingAnswer} (push : ringPush d cap r b = .ok o) (rest : ringRun d cap ops (o.getD r) = .ok (as, r')) :
    ringRun d cap (.push b :: ops) r = .ok (.pushed o.isSome :: as, r') := by
  simp only [ringRun, push, rest]

theorem ringRun_pop_empty {d : Dir} {cap : Nat} {ops : List RingOp} {r r' : Ring} {as : List RingAnswer}
    (pop : ringPop d cap r = .ok none) (rest : ringRun d cap ops r = .ok (as, r')) :
    ringRun d cap (.pop :: ops) r = .ok (.popped none :: as, r') := by
  simp only [ringRun, pop, rest]

theorem ringRun_pop_some {d : Dir} {cap : Nat} {b : Byte} {ops : List RingOp} {r r₁ r' : Ring} {as : List RingAnswer}
    (pop : ringPop d cap r = .ok (some (b, r₁))) (rest : ringRun d cap ops r₁ = .ok (as, r')) :
    ringRun d cap (.pop :: ops) r = .ok (.popped (some b) :: as, r') := by
  simp only [ringRun, pop, rest]

theorem queueRun_push_room {cap : Nat} {q : List Byte} (b : Byte) (ops : List RingOp) (room : q.length < cap) :
    queueRun cap (.push b :: ops) q =
      (.pushed true :: (queueRun cap ops (q ++ [b])).1, (queueRun cap ops (q ++ [b])).2) := by
  simp only [queueRun, room, if_true]

theorem queueRun_push_full {cap : Nat} {q : List Byte} (b : Byte) (ops : List RingOp) (full : ¬ q.length < cap) :
    queueRun cap (.push b :: ops) q = (.pushed false :: (queueRun cap ops q).1, (queueRun cap ops q).2) := by
  simp only [queueRun, full, if_false]

/-! ### The ring simulates the queue (41 R104, 10 R23) -/

/-- The queued bytes are the simulation's abstraction: each primitive answers as the queue does on them, leaves them as
the queue leaves its bytes, and keeps the ranges and the link. -/
theorem ringRun_simulates_queueRun (d : Dir) {cap : Nat} (ops : List RingOp) {r : Ring} (hi : RingInv cap r)
    (hl : RingLinked cap r) :
    ∃ r', ringRun d cap ops r = .ok ((queueRun cap ops (r.contents cap)).1, r') ∧
      r'.contents cap = (queueRun cap ops (r.contents cap)).2 ∧ RingInv cap r' ∧ RingLinked cap r' := by
  induction ops generalizing r with
  | nil => exact ⟨r, rfl, rfl, hi, hl⟩
  | cons op ops ih =>
    cases op with
    | push b =>
      by_cases full : r.cnt = cap
      · obtain ⟨r', run, kept⟩ := ih hi hl
        rw [queueRun_push_full b ops (by simp [full])]
        exact ⟨r', ringRun_push (ringPush_full b full) run, kept⟩
      · obtain ⟨r', run, kept⟩ := ih (pushed_inv b hi full) (pushed_linked b hl)
        have room : (r.contents cap).length < cap := by
          rw [contents_length]; exact Nat.lt_of_le_of_ne hi.cnt_le full
        rw [queueRun_push_room b ops room]
        rw [contents_pushed b hi hl full] at run kept
        exact ⟨r', ringRun_push (ringPush_room b hi full) run, kept⟩
    | pop =>
      by_cases empty : r.cnt = 0
      · obtain ⟨r', run, kept⟩ := ih hi hl
        rw [contents_of_empty empty] at run kept ⊢
        exact ⟨r', ringRun_pop_empty (ringPop_empty empty) run, kept⟩
      · obtain ⟨r', run, kept⟩ := ih (popped_inv hi) (popped_linked hl empty)
        rw [contents_popped hi empty]
        exact ⟨r', ringRun_pop_some (ringPop_some hi empty) run, kept⟩

/-- Settles O30, by the simulation of the queue by the ring. -/
theorem ringImplementsQueue : Obligations.RingImplementsQueue := by
  intro d cap ops r hi hl
  obtain ⟨r', run, kept⟩ := ringRun_simulates_queueRun d ops hi hl
  exact ⟨_, r', run, rfl, kept⟩

/-- The law of the plain queue from any bytes `q`: those and the bytes stored are the bytes taken and those left. -/
theorem queueRun_fifo (cap : Nat) (ops : List RingOp) (q : List Byte) :
    q ++ storedBytes ops (queueRun cap ops q).1 = takenBytes (queueRun cap ops q).1 ++ (queueRun cap ops q).2 := by
  induction ops generalizing q with
  | nil => simp [queueRun, storedBytes, takenBytes]
  | cons op ops ih =>
    cases op with
    | push b =>
      by_cases room : q.length < cap
      · rw [queueRun_push_room b ops room]
        simpa [storedBytes, takenBytes] using ih (q ++ [b])
      · rw [queueRun_push_full b ops room]
        simpa [storedBytes, takenBytes] using ih q
    | pop =>
      cases q with
      | nil => simpa [queueRun, storedBytes, takenBytes] using ih []
      | cons b q => simpa [queueRun, storedBytes, takenBytes] using ih q

/-- Settles O31: the ring's run is the queue's from no bytes, where the queue's law is the claim. -/
theorem fifoOrder : Obligations.FifoOrder := by
  intro d cap ops r r' as hi hl empty run
  obtain ⟨r'', run', left, -⟩ := ringRun_simulates_queueRun d ops hi hl
  obtain ⟨rfl, rfl⟩ : as = _ ∧ r' = r'' := by simpa [run] using run'
  rw [left, contents_of_empty empty]
  exact queueRun_fifo cap ops []

/-! ### The primitives on an instance's buffer (41 R100, R101) -/

/-- Settles O27: with room, `try_push` leaves `pushedRing`, whose array and queued bytes the laws of the ring give. -/
theorem pushAppends : Obligations.PushAppends := by
  intro s d i b hs active room
  have hi : RingInv (s.cap d) ((s.inst i).ring d) := hs.ring (lt_of_active active) d
  have notFull : ((s.inst i).ring d).cnt ≠ s.cap d := Nat.ne_of_lt room
  refine ⟨((s.inst i).ring d).buf.store ((s.inst i).ring d).put b, ?_, fun a => store_byteAt hi.wf _ a b, ?_⟩
  · rw [tryPush_eq b hi, if_neg notFull]; rfl
  · rw [queued_active active]
    exact contents_pushed b hi (hs.linked active d) notFull

/-- On a full ring `try_push` counts one overrun and does nothing else, in every state. -/
theorem tryPush_full {d : Dir} {i : Nat} {s : State} (b : Byte) (full : ((s.inst i).ring d).cnt = s.cap d) :
    tryPush d i b s = .ok (false, satInc16 (overrunCounter d) s) := by
  simp only [tryPush, ringPush_full b full]

/-- Settles O28: the full ring of either buffer counts on that buffer's overrun counter. -/
theorem pushOnFullCountsOnce : Obligations.PushOnFullCountsOnce :=
  fun _ _ b => ⟨tryPush_full (d := .rx) b, tryPush_full (d := .tx) b⟩

/-- Settles O29: `try_pop` leaves an empty buffer alone, and else leaves `poppedRing` and the oldest queued byte. -/
theorem popTakesOldest : Obligations.PopTakesOldest := by
  intro s d i hs active
  have hi : RingInv (s.cap d) ((s.inst i).ring d) := hs.ring (lt_of_active active) d
  refine ⟨fun empty => ?_, fun nonempty => ⟨?_, ?_⟩⟩
  · rw [tryPop_eq hi, if_pos empty]
  · rw [tryPop_eq hi, if_neg (Nat.ne_of_gt nonempty)]; rfl
  · rw [queued_active active]
    exact contents_popped hi (Nat.ne_of_gt nonempty)

/-! ### Counters (41 R102, R103) -/

/-- Every way an operation can change counter `k` from the value `c`: the operation, and the value it leaves. -/
inductive CounterChange (c : Half) : CounterId → Instr → Half → Prop
  /-- PUTC on a full transmit buffer (41 R100). -/
  | putc (i : Nat) (b : Byte) : CounterChange c .txOvr (.putc i b) (satInc c)
  /-- An event with that error bit, or with a full receive buffer (42 R114, R115). -/
  | event (i : Nat) {k : CounterId} (hk : k ≠ .txOvr) : CounterChange c k (.irq i) (satInc c)
  /-- CNTRST (44 R141). -/
  | reset (k : CounterId) : CounterChange c k .cntrst 0

theorem zero_get (k : CounterId) : Counters.zero.get k = 0 := by cases k <;> rfl

/-- An event leaves each counter as it was or counts once on it, and never on CNT[4]. -/
theorem irqDone_counter (i : Nat) (s : State) (k : CounterId) :
    (irqDone i s).cnt.get k = s.cnt.get k ∨
      (k ≠ .txOvr ∧ (irqDone i s).cnt.get k = satInc (s.cnt.get k)) := by
  rw [irqDone_cnt]
  cases k with
  | txOvr => exact .inl rfl
  | ore | ne | fe | pe | rxOvr => exact (ite_eq_or_eq _ _ _).symm.imp_right fun e => ⟨by decide, e⟩

/-- PUTC leaves each counter as it was, or counts once on CNT[4]. -/
theorem PutcEffect.counter {i : Nat} {b : Byte} {s t : State} {ok : Bool} {r : Ring} (effect : PutcEffect i b s t ok r)
    (k : CounterId) :
    t.cnt.get k = s.cnt.get k ∨ (k = .txOvr ∧ t.cnt.get k = satInc (s.cnt.get k)) := by
  rw [effect.cnt]
  cases ok with
  | true => exact .inl rfl
  | false =>
    by_cases hk : k = .txOvr
    · subst hk; exact .inr ⟨rfl, rfl⟩
    · exact .inl (bump_get_of_ne _ _ _ hk)

/-- An operation leaves a counter as it was, or changes it in one of the ways of `CounterChange`. -/
theorem exec_counter {ins : Instr} {s t : State} (h : exec ins s = .next t) (k : CounterId) :
    t.cnt.get k = s.cnt.get k ∨ CounterChange (s.cnt.get k) k ins (t.cnt.get k) := by
  obtain ⟨r, -, rfl⟩ | ⟨i, cs, crnl, -, -, -, rfl⟩ | ⟨i, -, -, -, rfl⟩ | ⟨i, b, ok, r, rfl, -, -, effect⟩ |
    ⟨i, -, -, -, -, rfl⟩ | ⟨rfl, rfl⟩ | ⟨i, -, -, rfl⟩ | ⟨i, -, -, -, rfl⟩ | ⟨i, rfl, -, -, rfl⟩ := exec_cases h
  · exact .inl rfl
  · exact .inl rfl
  · exact .inl rfl
  · obtain same | ⟨rfl, counted⟩ := effect.counter k
    · exact .inl same
    · rw [counted]; exact .inr (.putc i b)
  · exact .inl rfl
  · rw [respond_cnt, zero_get]; exact .inr (.reset k)
  · exact .inl rfl
  · exact .inl rfl
  · obtain same | ⟨hk, counted⟩ := irqDone_counter i s k
    · exact .inl same
    · rw [counted]; exact .inr (.event i hk)

theorem satInc_bounds (c : Half) : c.toNat ≤ (satInc c).toNat ∧ (satInc c).toNat ≤ c.toNat + 1 := by
  have := c.isLt
  rw [satInc_toNat]
  omega

/-- Settles O50: every change of a counter but CNTRST's is one `sat_inc16`. -/
theorem countersNeverFall : Obligations.CountersNeverFall := by
  intro ins s t k h notReset
  obtain same | change := exec_counter h k
  · rw [same]; exact ⟨Nat.le_refl _, Nat.le_succ _⟩
  · generalize t.cnt.get k = c at change ⊢
    cases change with
    | putc | event => exact satInc_bounds _
    | reset => exact absurd rfl notReset

/-- Settles O32: the effect of `sat_inc16` from the laws of the bank; CNTRST raises no counter, and every other change
of one is a `sat_inc16`. -/
theorem saturatingIncrement : Obligations.SaturatingIncrement := by
  intro k s
  have counted : (satInc16 k s).cnt.get k = satInc (s.cnt.get k) := bump_get_self s.cnt k
  refine ⟨fun below => ?_, fun top => ?_, bump_get_of_ne s.cnt k, rfl, fun ins t h rose => ?_⟩
  · rw [counted]; exact if_neg below
  · rw [counted, top]; rfl
  · obtain same | change := exec_counter h k
    · exact absurd rose (by simp [same])
    · generalize t.cnt.get k = c at change rose ⊢
      cases change with
      | putc | event => exact Nat.le_antisymm (satInc_bounds _).2 rose
      | reset => exact absurd rose (Nat.not_lt_zero _)

end Sys2Proof.Machine
end

section
/-! Interrupt handler (42): what an event does to the counters, to each buffer and at the HAL port, and what it leaves. -/

namespace Sys2Proof.Machine

/-! ### The three cases of an event (42 R110, R111, R120) -/

theorem exec_irq_outOfRange {i : Nat} {s : State} (h : s.nInst ≤ i) : exec (.irq i) s = .next s := if_pos h

theorem exec_irq_inert {i : Nat} {s : State} (hn : i < s.nInst) (inert : (s.inst i).active = false) :
    exec (.irq i) s = .next (halLineDisable i s) :=
  (if_neg (Nat.not_le.mpr hn)).trans (if_pos inert)

theorem exec_irq_active {i : Nat} {s : State} (hs : Inv s) (active : (s.inst i).active = true) :
    exec (.irq i) s = .next (irqDone i s) := execIrq_active hs active

/-- Settles O33: the range check comes first. -/
theorem irqOutOfRangeNoEffect : Obligations.IrqOutOfRangeNoEffect := fun _ _ => exec_irq_outOfRange

/-- Settles O34: the guard of 42 R111 is `line_disable`, which writes the entry and HALLOG alone. -/
theorem irqInactiveGuard : Obligations.IrqInactiveGuard := fun _ _ => exec_irq_inert

/-! ### The receive buffer (42 R113, R115) -/

theorem irqDone_rx {i : Nat} {s : State} (hn : i < s.nInst) :
    ((irqDone i s).inst i).rx =
      if srRxne s.nextAnswer && decide ((s.inst i).rx.cnt ≠ s.rxCap) then
        pushedRing s.rxCap (s.inst i).rx s.takeAnswer.nextAnswer
      else (s.inst i).rx := by
  rw [irqDone_inst hn, if_pos rfl]

theorem irqDone_rx_of_not_rxne {i : Nat} {s : State} (hn : i < s.nInst) (noData : srRxne s.nextAnswer = false) :
    ((irqDone i s).inst i).rx = (s.inst i).rx := by
  simp [irqDone_rx hn, noData]

theorem irqDone_rx_of_full {i : Nat} {s : State} (hn : i < s.nInst) (full : (s.inst i).rx.cnt = s.rxCap) :
    ((irqDone i s).inst i).rx = (s.inst i).rx := by
  simp [irqDone_rx hn, full]

theorem irqDone_rx_of_room {i : Nat} {s : State} (hn : i < s.nInst) (data : srRxne s.nextAnswer = true)
    (room : (s.inst i).rx.cnt < s.rxCap) :
    ((irqDone i s).inst i).rx = pushedRing s.rxCap (s.inst i).rx s.takeAnswer.nextAnswer := by
  simp [irqDone_rx hn, data, Nat.ne_of_lt room]

theorem irqDone_rx_get {i : Nat} {s : State} (hn : i < s.nInst) :
    ((irqDone i s).inst i).rx.get = (s.inst i).rx.get := by
  rw [irqDone_rx hn]
  split <;> rfl

/-! ### The transmit buffer and TXEIE (42 R116, R117) -/

theorem irqDone_tx {i : Nat} {s : State} (hn : i < s.nInst) :
    ((irqDone i s).inst i).tx =
      if srTxe s.nextAnswer && decide ((s.inst i).tx.cnt ≠ 0) then poppedRing s.txCap (s.inst i).tx
      else (s.inst i).tx := by
  rw [irqDone_inst hn, if_pos rfl]

theorem irqDone_txeie {i : Nat} {s : State} (hn : i < s.nInst) :
    ((irqDone i s).inst i).txeie =
      ((s.inst i).txeie && !(srTxe s.nextAnswer && decide ((s.inst i).tx.cnt = 0))) := by
  rw [irqDone_inst hn, if_pos rfl]

theorem irqDone_tx_put {i : Nat} {s : State} (hn : i < s.nInst) :
    ((irqDone i s).inst i).tx.put = (s.inst i).tx.put := by
  rw [irqDone_tx hn]
  split <;> rfl

theorem irqDone_tx_buf {i : Nat} {s : State} (hn : i < s.nInst) :
    ((irqDone i s).inst i).tx.buf = (s.inst i).tx.buf := by
  rw [irqDone_tx hn]
  split <;> rfl

/-! ### What an event shows at the HAL port (42 R122) -/

theorem irqDone_issued {i : Nat} {s : State} (hn : i < s.nInst) :
    (irqDone i s).halLog = s.halLog ++ eventIssued i s := by
  rw [irqDone_halLog hn]
  simp only [eventIssued, List.append_assoc]

theorem irqDone_wire {i : Nat} {s : State} (hn : i < s.nInst) :
    wire i (irqDone i s).halLog = wire i s.halLog ++
      if srTxe s.nextAnswer ∧ (s.inst i).tx.cnt ≠ 0 then [(s.inst i).tx.buf.byteAt (s.inst i).tx.get] else [] := by
  rw [irqDone_issued hn, wire_append, wire_eventIssued]

theorem irqDone_dataReads {i : Nat} {s : State} (hn : i < s.nInst) :
    dataReads i (irqDone i s).halLog =
      dataReads i s.halLog ++ if srRxne s.nextAnswer then [s.takeAnswer.nextAnswer] else [] := by
  rw [irqDone_issued hn, dataReads_append, dataReads_eventIssued]

/-! ### The obligations about an event on an active instance -/

/-- Settles O35: the handler's bank is the classifier's four counts and the overrun of the push. -/
theorem irqCountsErrors : Obligations.IrqCountsErrors :=
  fun s i hs active => ⟨irqDone i s, exec_irq_active hs active, irqDone_cnt i s⟩

/-- Settles O36: classifier, data read and push all stand behind RXNE. -/
theorem errorBitsWithoutDataIgnored : Obligations.ErrorBitsWithoutDataIgnored := by
  intro s i hs active noData
  have hn := lt_of_active active
  have noRxne : srRxne s.nextAnswer = false := noData
  refine ⟨irqDone i s, exec_irq_active hs active, ?_, ?_, irqDone_rx_of_not_rxne hn noRxne⟩
  · simp [irqDone_cnt, noRxne]
  · simp [irqDone_dataReads hn, noRxne]

/-- Settles O37: with room the receive ring is `pushedRing`, whose array the store law gives; else it is as before. -/
theorem irqReceives : Obligations.IrqReceives := by
  intro s i hs active
  have hn := lt_of_active active
  refine ⟨irqDone i s, exec_irq_active hs active, irqDone_dataReads hn, irqDone_rx_of_not_rxne hn,
    fun _ => irqDone_rx_of_full hn, fun data room => ?_⟩
  have pushed := irqDone_rx_of_room hn data room
  simp only [State.bufByte, ring_rx, pushed]
  exact ⟨rfl, rfl, rfl, fun a => store_byteAt (hs.insts i hn).rx.wf _ a _⟩

/-- Settles O38, in the three cases of step 4: no TXE, nothing queued, a byte queued. -/
theorem irqTransmits : Obligations.IrqTransmits := by
  intro s i hs active
  have hn := lt_of_active active
  refine ⟨irqDone i s, exec_irq_active hs active, fun busy => ?_, fun ready empty => ?_, fun ready queued => ?_⟩
  · have noTxe : srTxe s.nextAnswer = false := busy
    simp [irqDone_tx hn, irqDone_txeie hn, irqDone_wire hn, noTxe]
  · have txe : srTxe s.nextAnswer = true := ready
    simp [irqDone_tx hn, irqDone_txeie hn, irqDone_wire hn, txe, empty]
  · have txe : srTxe s.nextAnswer = true := ready
    have nonempty := Nat.ne_of_gt queued
    simp [irqDone_tx hn, irqDone_txeie hn, irqDone_wire hn, txe, nonempty, poppedRing, advance, State.bufByte]

/-- Settles O39: HALLOG grows by the transactions the event issues, row by row of the table. -/
theorem irqHalTransactions : Obligations.IrqHalTransactions := by
  intro s i hs
  obtain ⟨t, event⟩ := exec_completes (.irq i) hs
  refine ⟨t, event, fun outOfRange => ?_, fun hn inert => ?_, fun _ active => ?_⟩ <;> rw [exec_halLog event]
  · simp [halIssued, outOfRange]
  · simp [halIssued, Nat.not_le.mpr hn, inert]
  · rw [halIssued_event active]
    by_cases empty : (s.inst i).tx.cnt = 0
    · simp [eventIssued, srRxne, srTxe, empty]
    · simp [eventIssued, srRxne, srTxe, empty, Nat.pos_of_ne_zero empty, State.bufByte]

/-- Settles O40: the entry changes in RX's put end, TX's get end and TXEIE alone, no other entry changes, and each HAL
read takes one answer. -/
theorem irqFrame : Obligations.IrqFrame := by
  intro s i hs active
  have hn := lt_of_active active
  have bytes (a : Nat) : (irqDone i s).bufByte .tx i a = s.bufByte .tx i a :=
    congrArg (Memory.byteAt · a) (irqDone_tx_buf hn)
  have others (j : Nat) (hj : j ≠ i) : (irqDone i s).inst j = s.inst j := by rw [irqDone_inst hn, if_neg hj]
  refine ⟨irqDone i s, exec_irq_active hs active, ?_, ?_, ?_, ?_, ?_, ?_, irqDone_rx_get hn, irqDone_tx_put hn, bytes,
    others, irqDone_params i s, irqDone_rspLog i s, irqDone_inputs i s, fun noData => ?_, fun data => ?_⟩
  iterate 6 rw [irqDone_inst hn, if_pos rfl]
  · have noRxne : srRxne s.nextAnswer = false := noData
    simp [irqDone_halIn, irqDone_draws, noRxne]
  · have rxne : srRxne s.nextAnswer = true := data
    simp [irqDone_halIn, irqDone_draws, rxne]

end Sys2Proof.Machine
end

section
/-! Stream Adapter (43): the whole state PUTC and GETC leave, case by case, and a line feed on its way to the wire. -/

namespace Sys2Proof.Machine

/-! ### The state PUTC leaves on an active instance (43 R130, R131) -/

/-- The state after PUTC has left the ring `r` on an active instance, with its response: OK, or Overrun with one count on
CNT[4] (43 R130). -/
def putcDone (i : Nat) (ok : Bool) (r : Ring) (s : State) : State :=
  { s with
    insts := s.insts.set i { s.inst i with txeie := (s.inst i).txeie || decide ((s.inst i).tx.cnt = 0), tx := r },
    cnt := if ok then s.cnt else s.cnt.bump .txOvr,
    halLog := s.halLog ++ if (s.inst i).tx.cnt = 0 then [.txeieEnable i] else [],
    rspLog := s.rspLog ++ [⟨if ok then .ok else .overrun, 0⟩] }

theorem putcDone_inst {i : Nat} {ok : Bool} {r : Ring} {s : State} (hn : i < s.nInst) (j : Nat) :
    (putcDone i ok r s).inst j =
      if j = i then { s.inst i with txeie := (s.inst i).txeie || decide ((s.inst i).tx.cnt = 0), tx := r }
      else s.inst j :=
  inst_setInst s i j _ hn

/-- `PutcEffect` names every field of the state, so it fixes the state. -/
theorem PutcEffect.eq_putcDone {i : Nat} {b : Byte} {s t : State} {ok : Bool} {r : Ring}
    (effect : PutcEffect i b s t ok r) (hn : i < s.nInst) : t = putcDone i ok r s := by
  obtain ⟨inst, cnt, rspLog, halLog, params, inputs, halIn, draws, -⟩ := effect
  have insts : t.insts = (putcDone i ok r s).insts := by
    refine insts_ext ?_ fun j => ?_
    · exact (congrArg Params.nInst params).trans (nInst_setInst s i _).symm
    · rw [inst, putcDone_inst hn]; rfl
  obtain ⟨-, rxCap, txCap, defaultStream⟩ := Params.mk.inj params
  cases t
  simp only [beq_iff_eq] at *
  subst_vars
  rfl

/-- PUTC on an active instance completes, in one of the ways of `PutcRing`. -/
theorem exec_putc_active {i : Nat} (b : Byte) {s : State} (hs : Inv s) (active : (s.inst i).active = true) :
    ∃ ok r, exec (.putc i b) s = .next (putcDone i ok r s) ∧ PutcRing s.txCap (s.inst i) b ok r := by
  obtain ⟨t, h⟩ := exec_completes (.putc i b) hs
  obtain ⟨ok, r, effect⟩ := execPutc_active active h
  exact ⟨ok, r, by rw [h, effect.eq_putcDone (lt_of_active active)], effect.ring⟩

/-- On a buffer that holds bytes PUTC leaves TXEIE and HALLOG (43 R130). -/
theorem putcDone_nonempty {i : Nat} {s : State} (ok : Bool) (r : Ring) (nonempty : (s.inst i).tx.cnt ≠ 0) :
    putcDone i ok r s =
      { s.setInst i { s.inst i with tx := r } with
        cnt := if ok then s.cnt else s.cnt.bump .txOvr,
        rspLog := s.rspLog ++ [⟨if ok then .ok else .overrun, 0⟩] } := by
  simp only [putcDone, nonempty, decide_false, Bool.or_false, if_false, List.append_nil, State.setInst]

/-! ### Which of PUTC's ways to end (43 R131's table) -/

theorem PutcRing.byte {cap : Nat} {c : Inst} {b : Byte} {ok : Bool} {r : Ring} (h : PutcRing cap c b ok r)
    (plain : translates c b = false) (room : c.tx.cnt < cap) : ok = true ∧ r = pushedRing cap c.tx b := by
  obtain ⟨hok, -, -, hr⟩ | ⟨-, htr, -⟩ | ⟨-, htr, -⟩ | ⟨-, full, -⟩ := h
  · exact ⟨hok, hr⟩
  · exact absurd htr (by simp [plain])
  · exact absurd htr (by simp [plain])
  · omega

theorem PutcRing.pair {cap : Nat} {c : Inst} {b : Byte} {ok : Bool} {r : Ring} (h : PutcRing cap c b ok r)
    (translated : translates c b = true) (room : c.tx.cnt + 2 ≤ cap) :
    ok = true ∧ r = pushedRing cap (pushedRing cap c.tx carriageReturn) b := by
  obtain ⟨-, htr, -⟩ | ⟨hok, -, -, -, hr⟩ | ⟨-, -, -, last, -⟩ | ⟨-, full, -⟩ := h
  · exact absurd htr (by simp [translated])
  · exact ⟨hok, hr⟩
  · omega
  · omega

theorem PutcRing.orphan {cap : Nat} {c : Inst} {b : Byte} {ok : Bool} {r : Ring} (h : PutcRing cap c b ok r)
    (translated : translates c b = true) (last : c.tx.cnt + 1 = cap) :
    ok = false ∧ r = pushedRing cap c.tx carriageReturn := by
  obtain ⟨-, htr, -⟩ | ⟨-, -, -, notLast, -⟩ | ⟨hok, -, -, -, hr⟩ | ⟨-, full, -⟩ := h
  · exact absurd htr (by simp [translated])
  · exact absurd last notLast
  · exact ⟨hok, hr⟩
  · omega

theorem PutcRing.full {cap : Nat} {c : Inst} {b : Byte} {ok : Bool} {r : Ring} (h : PutcRing cap c b ok r)
    (full : c.tx.cnt = cap) : ok = false ∧ r = c.tx := by
  obtain ⟨-, -, room, -⟩ | ⟨-, -, room, -⟩ | ⟨-, -, room, -⟩ | ⟨hok, -, hr⟩ := h
  · exact absurd full room
  · exact absurd full room
  · exact absurd full room
  · exact ⟨hok, hr⟩

/-! ### The ring after two pushes -/

theorem advance_advance (cap x : Nat) : advance cap (advance cap x) = (x + 2) % cap := by
  rw [advance, advance, Nat.mod_add_mod]

/-- With room for two, the second byte of a pair goes to another index than the first. -/
theorem advance_ne {cap x : Nat} (two : 2 ≤ cap) (hx : x < cap) : advance cap x ≠ x := by
  rw [advance, mod_once hx (by omega)]
  split <;> omega

/-- The array after two pushes: each byte at its index, every other byte as before. -/
theorem pushed_pushed_byteAt {cap : Nat} {r : Ring} (hi : RingInv cap r) (two : 2 ≤ cap) (x y : Byte) (a : Nat) :
    (pushedRing cap (pushedRing cap r x) y).buf.byteAt a =
      if a = r.put then x else if a = advance cap r.put then y else r.buf.byteAt a := by
  have apart := advance_ne two hi.put_lt
  simp only [pushedRing]
  rw [store_byteAt (store_wf hi.wf _ _), store_byteAt hi.wf]
  by_cases first : a = r.put
  · simp [first, apart.symm]
  · simp [first]

/-! ### The obligations about PUTC -/

/-- Settles O17: the ring is `pushedRing`, whose array the store law gives. -/
theorem putcQueuesOneByte : Obligations.PutcQueuesOneByte := by
  intro s i b hs active plain room
  obtain ⟨ok, r, done, ring⟩ := exec_putc_active b hs active
  have notTranslated : translates (s.inst i) b = false := by
    rwa [← translates_iff, Bool.not_eq_true] at plain
  obtain ⟨rfl, rfl⟩ := ring.byte notTranslated room
  exact ⟨_, done, fun a => store_byteAt (hs.insts i (lt_of_active active)).tx.wf _ a b⟩

/-- Settles O18: the ring is `pushedRing` twice, the carriage return first. -/
theorem putcQueuesCarriageReturnFirst : Obligations.PutcQueuesCarriageReturnFirst := by
  intro s i hs active crnl room
  obtain ⟨ok, r, done, ring⟩ := exec_putc_active 0x0A hs active
  obtain ⟨rfl, rfl⟩ := ring.pair ((translates_iff _ _).mpr ⟨crnl, rfl⟩) room
  refine ⟨_, ?_, pushed_pushed_byteAt (hs.insts i (lt_of_active active)).tx (by omega) _ _⟩
  rw [done, ← advance_advance]
  rfl

/-- Settles O19: the carriage return is pushed and the second push finds the buffer full. The capacity is two or more, so
the buffer was not empty. -/
theorem putcOrphanCarriageReturn : Obligations.PutcOrphanCarriageReturn := by
  intro s i hs active crnl last
  obtain ⟨ok, r, done, ring⟩ := exec_putc_active 0x0A hs active
  obtain ⟨rfl, rfl⟩ := ring.orphan ((translates_iff _ _).mpr ⟨crnl, rfl⟩) last
  have nonempty : (s.inst i).tx.cnt ≠ 0 := by have := hs.rxCap_pos; have := hs.cap_lt; omega
  refine ⟨_, ?_, fun a => store_byteAt (hs.insts i (lt_of_active active)).tx.wf _ a carriageReturn⟩
  rw [done, putcDone_nonempty _ _ nonempty, pushedRing, last]
  rfl

/-- Settles O20: the ring is as before, and a full buffer was not empty. -/
theorem putcOnFullBuffer : Obligations.PutcOnFullBuffer := by
  intro s i b hs active full
  obtain ⟨ok, r, done, ring⟩ := exec_putc_active b hs active
  obtain ⟨rfl, rfl⟩ := ring.full full
  have nonempty : (s.inst i).tx.cnt ≠ 0 := by have := hs.cap_pos .tx; rw [cap_tx] at this; omega
  rw [done, putcDone_nonempty _ _ nonempty, setInst_inst]
  rfl

/-! ### GETC (43 R132) -/

/-- GETC that finds a byte: the oldest one, and the ring without it. -/
theorem exec_getc_nonempty {i : Nat} {s : State} (hs : Inv s) (active : (s.inst i).active = true)
    (nonempty : (s.inst i).rx.cnt ≠ 0) :
    exec (.getc i) s = .next (respond ⟨.ok, zextByte ((s.inst i).rx.buf.byteAt (s.inst i).rx.get)⟩
      (s.setInst i { s.inst i with rx := poppedRing s.rxCap (s.inst i).rx })) := by
  have hn := lt_of_active active
  obtain ⟨t, h⟩ := getcActive_ok hs hn
  obtain ⟨empty, -⟩ | ⟨-, rfl⟩ := getcActive_cases h
  · exact absurd empty nonempty
  · exact (onActive_active _ hn active).trans h

/-- Settles O22: the pop's ring and byte. -/
theorem getcTakesOldestByte : Obligations.GetcTakesOldestByte :=
  fun _ _ hs active queued => exec_getc_nonempty hs active (Nat.ne_of_gt queued)

/-- Settles O23: GETC on an empty buffer only answers. -/
theorem getcWouldBlock : Obligations.GetcWouldBlock := by
  intro s i hn active empty
  refine exec_onlyAnswer (r := ⟨.overrun, 0⟩) ?_
  simp [onlyAnswer, Nat.not_le.mpr hn, active, empty]

/-! ### Queued bytes on their way to the wire (42 R116, 43 R131) -/

theorem queued_length {d : Dir} {i : Nat} {s : State} (active : (s.inst i).active = true) :
    (queued d i s).length = ((s.inst i).ring d).cnt := by
  rw [queued_active active, contents_length]

theorem execAll_cons_eq {ins : Instr} {s t : State} (first : exec ins s = .next t) (ops : List Instr) :
    execAll (ins :: ops) s = execAll ops t := by
  simp only [execAll, first]

/-- An event with TXE sends the oldest queued byte and leaves the others queued. -/
theorem irqDone_sends_oldest {i : Nat} {s : State} {b : Byte} {rest : List Byte} (hs : Inv s)
    (active : (s.inst i).active = true) (txe : srTxe s.nextAnswer = true) (bytes : queued .tx i s = b :: rest) :
    wire i (irqDone i s).halLog = wire i s.halLog ++ [b] ∧ queued .tx i (irqDone i s) = rest := by
  have nonempty : (s.inst i).tx.cnt ≠ 0 := by
    rw [← ring_tx, ← queued_length active, bytes]
    exact Nat.succ_ne_zero _
  have order := exec_transmit_fifo hs (exec_irq_active hs active) i
  rw [bytes, halIssued_event active, wire_eventIssued, if_pos ⟨txe, nonempty⟩] at order
  obtain ⟨oldest, left⟩ : b = _ ∧ rest = _ := by simpa [txAccepted] using order
  rw [irqDone_wire (lt_of_active active), if_pos ⟨txe, nonempty⟩, oldest]
  exact ⟨rfl, left.symm⟩

/-- As many events as bytes are queued, each a status word with TXE and a received byte, send them all, in order,
whatever they receive. -/
theorem events_send_queued {i : Nat} (events : List (Byte × Byte)) {s : State} (rest : List Byte) (hs : Inv s)
    (active : (s.inst i).active = true) (count : events.length = (queued .tx i s).length)
    (txe : ∀ e ∈ events, srTxe e.1 = true)
    (answers : s.halIn = events.flatMap (fun e => eventAnswers e.1 e.2) ++ rest) :
    ∃ t, execAll (events.map fun _ => .irq i) s = .next t ∧
      wire i t.halLog = wire i s.halLog ++ queued .tx i s ∧ (t.inst i).tx.cnt = 0 := by
  induction events generalizing s with
  | nil =>
    have noBytes : queued .tx i s = [] := List.eq_nil_of_length_eq_zero count.symm
    exact ⟨s, rfl, by simp [noBytes], (queued_length active).symm.trans count.symm⟩
  | cons e events ih =>
    obtain ⟨b, left, bytes⟩ := List.exists_cons_of_length_eq_add_one count.symm
    rw [List.flatMap_cons, List.append_assoc] at answers
    obtain ⟨status, -, taken⟩ := eventAnswers_taken answers i
    have event := exec_irq_active hs active
    obtain ⟨sent, kept⟩ := irqDone_sends_oldest hs active (by rw [status]; exact txe e List.mem_cons_self) bytes
    have active' : ((irqDone i s).inst i).active = true := by
      rw [irqDone_inst (lt_of_active active), if_pos rfl, active]
    obtain ⟨t, run, wireAfter, empty⟩ := ih (exec_inv hs event) active'
      (by rw [kept]; simpa [bytes] using count) (fun e h => txe e (List.mem_cons_of_mem _ h)) taken
    refine ⟨t, (execAll_cons_eq event _).trans run, ?_, empty⟩
    rw [wireAfter, sent, kept, bytes, List.append_assoc, List.singleton_append]

theorem putcBytes_length_le (crnl : Bool) (b : Byte) : (putcBytes crnl b).length ≤ 2 := by
  unfold putcBytes
  split <;> simp

/-- PUTC on an empty buffer has room for all its bytes: the capacity is two or more. -/
theorem queued_putc_idle {i : Nat} {b : Byte} {s t : State} (hs : Inv s) (active : (s.inst i).active = true)
    (idle : (s.inst i).tx.cnt = 0) (done : exec (.putc i b) s = .next t) :
    queued .tx i t = putcBytes (s.inst i).cfgCrnl b := by
  have fits : (putcBytes (s.inst i).cfgCrnl b).length ≤ s.txCap := by
    have := putcBytes_length_le (s.inst i).cfgCrnl b
    have := hs.rxCap_pos
    have := hs.cap_lt
    omega
  have noBytes : queued .tx i s = [] := List.eq_nil_of_length_eq_zero ((queued_length active).trans idle)
  have order := exec_transmit_fifo hs done i
  rw [noBytes, wire_halIssued_of_ne (by simp)] at order
  simpa [txAccepted, active, idle, List.take_of_length_le fits] using order.symm

/-- PUTC of a byte on an empty buffer, then an event for each byte it queues: those bytes reach the wire. -/
theorem putc_reaches_wire {i : Nat} (b : Byte) (events : List (Byte × Byte)) {s : State} (rest : List Byte) (hs : Inv s)
    (active : (s.inst i).active = true) (idle : (s.inst i).tx.cnt = 0)
    (count : events.length = (putcBytes (s.inst i).cfgCrnl b).length) (txe : ∀ e ∈ events, srTxe e.1 = true)
    (answers : s.halIn = events.flatMap (fun e => eventAnswers e.1 e.2) ++ rest) :
    ∃ t, execAll (.putc i b :: events.map fun _ => .irq i) s = .next t ∧
      wire i t.halLog = wire i s.halLog ++ putcBytes (s.inst i).cfgCrnl b ∧ (t.inst i).tx.cnt = 0 := by
  obtain ⟨ok, r, done, -⟩ := exec_putc_active b hs active
  have silent : wire i (putcDone i ok r s).halLog = wire i s.halLog := by
    rw [exec_halLog done, wire_append, wire_halIssued_of_ne (by simp), List.append_nil]
  have bytes := queued_putc_idle hs active idle done
  have active' : ((putcDone i ok r s).inst i).active = true := by
    rw [putcDone_inst (lt_of_active active), if_pos rfl, active]
  rw [execAll_cons_eq done, ← silent, ← bytes]
  exact events_send_queued events rest (exec_inv hs done) active' (by rw [count, bytes]) txe answers

/-- Settles O21: under translation the line feed is two bytes and takes two events, else it is one byte and takes one. -/
theorem lineFeedOnTheWire : Obligations.LineFeedOnTheWire := by
  intro s i sr1 dr1 sr2 dr2 rest hs active idle txe1 txe2 answers
  constructor
  · intro crnl
    have sends := putc_reaches_wire 0x0A [(sr1, dr1), (sr2, dr2)] rest hs active idle
    rw [crnl] at sends
    exact sends rfl (by simp [srTxe, txe1, txe2]) (by simpa using answers)
  · intro crnl
    have sends := putc_reaches_wire 0x0A [(sr1, dr1)] (eventAnswers sr2 dr2 ++ rest) hs active idle
    rw [crnl] at sends
    exact sends rfl (by simp [srTxe, txe1]) (by simpa using answers)

end Sys2Proof.Machine
end

section
/-! Diagnostics (44): what STAT and CNTRD answer, case by case, and the reset of the counters. -/

namespace Sys2Proof.Machine

/-! ### STAT (44 R142) -/

/-- The flags of STAT as a sum, one weight a bit. -/
theorem statFlags_toNat (c : Inst) :
    (statFlags c).toNat = 8 * c.streamPub.toNat + 4 * c.cfgCrnl.toNat + 2 * c.cfgCs.toNat + 1 := by
  unfold statFlags
  cases c.streamPub <;> cases c.cfgCrnl <;> cases c.cfgCs <;> rfl

/-- A capacity fits in 16 bits (00 R5). -/
theorem Inv.cap_le {s : State} (hs : Inv s) (d : Dir) : s.cap d ≤ 65535 := by
  cases d with
  | rx => exact hs.cap_lt.le.trans hs.txCap_le
  | tx => exact hs.txCap_le

/-- A count is at most its capacity, so its zero extension drops no bit (30 R68). -/
theorem zextCount_toNat {s : State} {i : Nat} (hs : Inv s) (hn : i < s.nInst) (d : Dir) :
    (zextCount ((s.inst i).ring d).cnt).toNat = ((s.inst i).ring d).cnt := by
  have fits : ((s.inst i).ring d).cnt ≤ 65535 := (hs.ring hn d).cnt_le.trans (hs.cap_le d)
  exact Nat.mod_eq_of_lt (Nat.lt_succ_of_le fits)

/-- Settles O24: of STAT's three cases the hypotheses of each clause leave one. -/
theorem statAnswers : Obligations.StatAnswers := by
  intro s i sel hs
  obtain ⟨refused, done⟩ | ⟨hn, legal, inert, done⟩ | ⟨hn, legal, active, done⟩ := execStat_cases i sel s
  · refine ⟨⟨.invalidArgument, 0⟩, done, fun _ => rfl, fun hn legal => ?_, fun hn _ => ?_⟩
    · exact absurd refused (not_or.mpr ⟨Nat.not_le.mpr hn, legal⟩)
    · obtain rfl : sel = .illegal := refused.resolve_left (Nat.not_le.mpr hn)
      simp
  · refine ⟨⟨.ok, 0⟩, done, fun refused => ?_, fun _ _ _ => rfl, fun _ active => ?_⟩
    · exact absurd refused (not_or.mpr ⟨Nat.not_le.mpr hn, legal⟩)
    · exact absurd active (by simp [inert])
  · refine ⟨⟨.ok, statVal s i sel⟩, done, fun refused => ?_, fun _ _ inert => ?_, fun _ _ => ⟨?_, ?_, ?_⟩⟩
    · exact absurd refused (not_or.mpr ⟨Nat.not_le.mpr hn, legal⟩)
    · exact absurd inert (by simp [active])
    · rintro rfl
      exact ⟨rfl, statFlags_toNat (s.inst i)⟩
    · rintro rfl
      exact ⟨rfl, zextCount_toNat hs hn .rx⟩
    · rintro rfl
      exact ⟨rfl, zextCount_toNat hs hn .tx⟩

/-! ### CNTRD and CNTRST (44 R140, R141) -/

/-- CNTRD of a number that has a counter (10 R26). -/
theorem exec_cntrd {k : Nat} {c : CounterId} (s : State) (named : counterOf k = some c) :
    exec (.cntrd k) s = .next (respond ⟨.ok, s.cnt.get c⟩ s) :=
  exec_onlyAnswer (by simp [onlyAnswer, named])

/-- Settles O25: the six numbers name the six counters in the order of 10 R26, and a number of 6 or more names none. -/
theorem cntrdAnswers : Obligations.CntrdAnswers := by
  refine fun s => ⟨exec_cntrd s (c := .ore) rfl, exec_cntrd s (c := .ne) rfl, exec_cntrd s (c := .fe) rfl,
    exec_cntrd s (c := .pe) rfl, exec_cntrd s (c := .txOvr) rfl, exec_cntrd s (c := .rxOvr) rfl, fun k beyond => ?_⟩
  obtain ⟨-, -, refused⟩ | ⟨within, -⟩ := execCntrd_cases k s
  · exact refused
  · exact absurd beyond (Nat.not_le.mpr within)

/-- Settles O26: CNTRST puts the zero bank in the place of the counters and answers. -/
theorem cntrstZeroesAll : Obligations.CntrstZeroesAll := fun _ => rfl

end Sys2Proof.Machine
end

section
/-! Exceptions (60): two pending events in either order, what an operation leaves of the instances it does not name, who
owns which counter, and which command raises which error and what it leaves behind. -/

namespace Sys2Proof.Machine

/-! ### Two pending events (60 R159) -/

/-- One counter after an event: counted once when its condition holds (42 R114, R115). -/
def countedIf (cond : Bool) (c : Half) : Half := if cond then satInc c else c

theorem countedIf_comm (p q : Bool) (c : Half) : countedIf p (countedIf q c) = countedIf q (countedIf p c) := by
  cases p <;> cases q <;> rfl

/-- The bank after an event with the status word `sr`; `full`: the receive buffer has no room (42 R114, R115). -/
def eventCounters (sr : Byte) (full : Bool) (c : Counters) : Counters :=
  { ore := countedIf (srRxne sr && srOre sr) c.ore,
    ne := countedIf (srRxne sr && srNe sr) c.ne,
    fe := countedIf (srRxne sr && srFe sr) c.fe,
    pe := countedIf (srRxne sr && srPe sr) c.pe,
    txOvr := c.txOvr,
    rxOvr := countedIf (srRxne sr && full) c.rxOvr }

theorem eventCounters_comm (sr sr' : Byte) (full full' : Bool) (c : Counters) :
    eventCounters sr full (eventCounters sr' full' c) = eventCounters sr' full' (eventCounters sr full c) := by
  unfold eventCounters
  congr 1 <;> exact countedIf_comm _ _ _

/-- The entry after an event with the status word `sr` and the received byte `dr` (42 R110). -/
def eventEntry (rxCap txCap : Nat) (sr dr : Byte) (c : Inst) : Inst :=
  { c with
    txeie := c.txeie && !(srTxe sr && decide (c.tx.cnt = 0)),
    rx := if srRxne sr && decide (c.rx.cnt ≠ rxCap) then pushedRing rxCap c.rx dr else c.rx,
    tx := if srTxe sr && decide (c.tx.cnt ≠ 0) then poppedRing txCap c.tx else c.tx }

/-- What an event on an active instance leaves of the state when its answers are listed: a function of them, of the
instance's own entry and of the bank. -/
theorem irqDone_listed {i : Nat} {sr dr : Byte} {more : List Byte} {s : State} (hn : i < s.nInst)
    (answers : s.halIn = eventAnswers sr dr ++ more) :
    (∀ k, (irqDone i s).inst k = if k = i then eventEntry s.rxCap s.txCap sr dr (s.inst i) else s.inst k) ∧
      (irqDone i s).cnt = eventCounters sr (decide ((s.inst i).rx.cnt = s.rxCap)) s.cnt ∧
      (irqDone i s).halIn = more := by
  obtain ⟨status, data, taken⟩ := eventAnswers_taken answers i
  refine ⟨fun k => ?_, ?_, taken⟩
  · rw [irqDone_inst hn, status, eventEntry]
    cases rxne : srRxne sr with
    | false => rfl
    | true => rw [data rxne]
  · rw [irqDone_cnt, status]
    rfl

/-- What two events, first of instance `i` and then of instance `j`, leave of the state. -/
structure EventPair (s : State) (i j : Nat) (sri dri srj drj : Byte) (rest : List Byte) (t : State) : Prop where
  nInst : t.nInst = s.nInst
  inst : ∀ k, t.inst k =
    if k = j then eventEntry s.rxCap s.txCap srj drj (s.inst j)
    else if k = i then eventEntry s.rxCap s.txCap sri dri (s.inst i)
    else s.inst k
  cnt : t.cnt = eventCounters srj (decide ((s.inst j).rx.cnt = s.rxCap))
    (eventCounters sri (decide ((s.inst i).rx.cnt = s.rxCap)) s.cnt)
  halIn : t.halIn = rest
  rspLog : t.rspLog = s.rspLog

/-- Two events of different active instances complete. -/
theorem execAll_eventPair {s : State} {i j : Nat} {sri dri srj drj : Byte} {rest : List Byte} (hs : Inv s) (ne : i ≠ j)
    (activeI : (s.inst i).active = true) (activeJ : (s.inst j).active = true)
    (answers : s.halIn = eventAnswers sri dri ++ eventAnswers srj drj ++ rest) :
    ∃ t, execAll [.irq i, .irq j] s = .next t ∧ EventPair s i j sri dri srj drj rest t := by
  rw [List.append_assoc] at answers
  have first := exec_irq_active hs activeI
  obtain ⟨inst₁, cnt₁, halIn₁⟩ := irqDone_listed (lt_of_active activeI) answers
  have kept : (irqDone i s).inst j = s.inst j := by rw [inst₁, if_neg ne.symm]
  have activeJ₁ : ((irqDone i s).inst j).active = true := by rw [kept, activeJ]
  have second := exec_irq_active (exec_inv hs first) activeJ₁
  obtain ⟨inst₂, cnt₂, halIn₂⟩ := irqDone_listed (lt_of_active activeJ₁) halIn₁
  refine ⟨irqDone j (irqDone i s), ?_, ?_, fun k => ?_, ?_, halIn₂, ?_⟩
  · rw [execAll_cons_eq first, execAll_cons_eq second, execAll]
  · rw [irqDone_nInst, irqDone_nInst]
  · rw [inst₂, kept, inst₁, irqDone_rxCap, irqDone_txCap]
  · rw [cnt₂, kept, cnt₁, irqDone_rxCap]
  · rw [irqDone_rspLog, irqDone_rspLog]

/-- What a pair of events leaves does not depend on the list its answers were taken from. -/
theorem EventPair.of_halIn {s t : State} {answers : List Byte} {i j : Nat} {sri dri srj drj : Byte} {rest : List Byte}
    (h : EventPair { s with halIn := answers } i j sri dri srj drj rest t) : EventPair s i j sri dri srj drj rest t :=
  ⟨h.nInst, h.inst, h.cnt, h.halIn, h.rspLog⟩

/-- The two orders of a pair of events leave the same state, HALLOG aside. -/
theorem EventPair.comm {s t u : State} {i j : Nat} {sri dri srj drj : Byte} {rest : List Byte} (ne : i ≠ j)
    (ht : EventPair s i j sri dri srj drj rest t) (hu : EventPair s j i srj drj sri dri rest u) :
    t.insts = u.insts ∧ t.cnt = u.cnt ∧ t.halIn = u.halIn ∧ t.rspLog = u.rspLog := by
  refine ⟨insts_ext (ht.nInst.trans hu.nInst.symm) fun k => ?_, ?_, ht.halIn.trans hu.halIn.symm,
    ht.rspLog.trans hu.rspLog.symm⟩
  · rw [ht.inst, hu.inst]
    by_cases hj : k = j
    · have hi : k ≠ i := fun hi => ne (hi.symm.trans hj)
      rw [if_pos hj, if_neg hi, if_pos hj]
    · rw [if_neg hj, if_neg hj]
  · rw [ht.cnt, hu.cnt, eventCounters_comm]

/-- The invariant says nothing of the environment's answers. -/
theorem inv_halIn {s : State} (answers : List Byte) (hs : Inv s) : Inv { s with halIn := answers } :=
  inv_of_insts (s := s) rfl rfl rfl rfl hs

/-- Settles O41: each event reads and writes its own entry, and the counts both make on the shared bank commute. -/
theorem eventsOfTwoInstancesCommute : Obligations.EventsOfTwoInstancesCommute := by
  intro s i j sri dri srj drj rest hs ne activeI activeJ
  obtain ⟨t, runT, pairT⟩ := execAll_eventPair
    (inv_halIn (eventAnswers sri dri ++ eventAnswers srj drj ++ rest) hs) ne activeI activeJ rfl
  obtain ⟨u, runU, pairU⟩ := execAll_eventPair
    (inv_halIn (eventAnswers srj drj ++ eventAnswers sri dri ++ rest) hs) ne.symm activeJ activeI rfl
  exact ⟨t, u, runT, runU, pairT.of_halIn.comm ne pairU.of_halIn⟩

/-! ### Instances and counters an operation leaves (60 R163, R165) -/

/-- An operation changes only the entry of the instance it names. -/
theorem EntryChange.instOf {s : State} {i : Nat} {ins : Instr} {c : Inst} (change : EntryChange s i ins c) :
    ins.instOf = some i := by
  cases change <;> rfl

/-- Settles O47: every change of an entry is by an operation that names its instance. -/
theorem otherInstancesUntouched : Obligations.OtherInstancesUntouched :=
  fun _ _ _ j h unnamed => (exec_inst h j).resolve_right fun change => unnamed change.instOf

/-- Settles O51: of the ways a counter can change, PUTC's is on CNT[4] and an event's on another. -/
theorem counterOwners : Obligations.CounterOwners := by
  intro ins s t k h notReset changed
  have change := (exec_counter h k).resolve_left changed
  generalize t.cnt.get k = c at change
  cases change with
  | putc i b => exact .inl ⟨rfl, i, b, rfl⟩
  | event i other => exact .inr ⟨other, i, rfl⟩
  | reset => exact absurd rfl notReset

/-! ### The error of a command (60 R152, R155) -/

/-- The error behind the checks START, PUTC and GETC share: `body` when they let the command through (60 R155). -/
def activeErr (s : State) (i : Nat) (body : ErrCode) : ErrCode :=
  if s.nInst ≤ i then .invalidArgument
  else if (s.inst i).active then body
  else .badInstance

/-- The error code an operation answers; OK for IRQ, which answers nothing (60 R152). -/
def answerErr (s : State) : Instr → ErrCode
  | .init i _ _ =>
    if s.nInst ≤ i then .invalidArgument else if (s.inst i).active then .invalidState else .ok
  | .start i => activeErr s i .ok
  | .putc i b =>
    activeErr s i (if s.txCap < (s.inst i).tx.cnt + (putcBytes (s.inst i).cfgCrnl b).length then .overrun else .ok)
  | .getc i => activeErr s i (if (s.inst i).rx.cnt = 0 then .overrun else .ok)
  | .stat i sel => if s.nInst ≤ i ∨ sel = .illegal then .invalidArgument else .ok
  | .cntrd k => if 6 ≤ k then .invalidArgument else .ok
  | .gdc | .cntrst | .irq _ => .ok

theorem activeErr_of_active {s : State} {i : Nat} (body : ErrCode) (active : (s.inst i).active = true) :
    activeErr s i body = body := by
  simp [activeErr, Nat.not_le.mpr (lt_of_active active), active]

theorem activeErr_eq_invalidArgument {s : State} {i : Nat} {body : ErrCode} (hb : body ≠ .invalidArgument) :
    activeErr s i body = .invalidArgument ↔ s.nInst ≤ i := by
  unfold activeErr
  split
  · simp [*]
  · split <;> simp [*]

theorem activeErr_eq_badInstance {s : State} {i : Nat} {body : ErrCode} (hb : body ≠ .badInstance) :
    activeErr s i body = .badInstance ↔ i < s.nInst ∧ (s.inst i).active = false := by
  unfold activeErr
  split
  · next outOfRange => simp [Nat.not_lt.mpr outOfRange]
  · next inRange => split <;> simp_all

/-- Any other error comes from the command's own body, which runs on an active instance alone. -/
theorem activeErr_eq_body {s : State} {i : Nat} {body e : ErrCode} (h₁ : e ≠ .invalidArgument) (h₂ : e ≠ .badInstance) :
    activeErr s i body = e ↔ (s.inst i).active = true ∧ body = e := by
  cases active : (s.inst i).active with
  | true => simp [activeErr_of_active body active]
  | false =>
    unfold activeErr
    split <;> simp [active, h₁.symm, h₂.symm]

/-- PUTC's pushes fail exactly when the bytes it would queue are more than there is room for (43 R131). -/
theorem PutcRing.overrun_iff {cap : Nat} {c : Inst} {b : Byte} {ok : Bool} {r : Ring} (h : PutcRing cap c b ok r)
    (hi : RingInv cap c.tx) : ok = false ↔ cap < c.tx.cnt + (putcBytes c.cfgCrnl b).length := by
  have le := hi.cnt_le
  have bytes := putcBytes_eq c b
  obtain ⟨rfl, plain, room, -⟩ | ⟨rfl, translated, room, room₂, -⟩ | ⟨rfl, translated, -, last, -⟩ | ⟨rfl, full, -⟩ := h
  · have one : (putcBytes c.cfgCrnl b).length = 1 := by simp [bytes, plain]
    exact iff_of_false nofun (by omega)
  · have two : (putcBytes c.cfgCrnl b).length = 2 := by simp [bytes, translated]
    exact iff_of_false nofun (by omega)
  · have two : (putcBytes c.cfgCrnl b).length = 2 := by simp [bytes, translated]
    exact iff_of_true rfl (by omega)
  · have atLeastOne : 0 < (putcBytes c.cfgCrnl b).length := by rw [bytes]; split <;> exact Nat.succ_pos _
    exact iff_of_true rfl (by omega)

/-- The error of a command that only answers. -/
theorem onlyAnswer_err {ins : Instr} {s : State} {r : Rsp} (h : onlyAnswer ins s = some r) : r.err = answerErr s ins := by
  cases ins with
  | gdc => cases h; rfl
  | cntrst | irq => cases h
  | cntrd k =>
    obtain ⟨beyond, noCounter, -⟩ | ⟨within, c, named, -⟩ := execCntrd_cases k s
    · simp only [onlyAnswer, noCounter, Option.some.injEq] at h
      simp [answerErr, beyond, ← h]
    · simp only [onlyAnswer, named, Option.some.injEq] at h
      simp [answerErr, Nat.not_le.mpr within, ← h]
  | init | start | putc | getc | stat =>
    simp only [onlyAnswer] at h
    simp only [answerErr, activeErr]
    repeat' split at h
    all_goals cases h
    all_goals simp [*]

/-- Every way an operation can answer `r`: it only answers; PUTC runs on an active instance; or it succeeds. -/
theorem exec_answer_cases {ins : Instr} {s t : State} {r : Rsp} (h : exec ins s = .next t)
    (answered : t.rspLog = s.rspLog ++ [r]) :
    (onlyAnswer ins s = some r ∧ t = respond r s) ∨
    (∃ i b ok ring, ins = .putc i b ∧ (s.inst i).active = true ∧ PutcEffect i b s t ok ring ∧
      r.err = if ok then .ok else .overrun) ∨
    (r.err = .ok ∧ answerErr s ins = .ok) := by
  have answer {r' : Rsp} (h' : t.rspLog = s.rspLog ++ [r']) : r' = r :=
    List.singleton_inj.mp (List.append_cancel_left (h'.symm.trans answered))
  have silent (h' : t.rspLog = s.rspLog) : False := by simp [h'] at answered
  obtain ⟨r', only, rfl⟩ | ⟨i, cs, crnl, rfl, hn, inert, rfl⟩ | ⟨i, rfl, hn, active, rfl⟩ |
    ⟨i, b, ok, ring, rfl, -, active, effect⟩ | ⟨i, rfl, -, active, nonempty, rfl⟩ | ⟨rfl, rfl⟩ | ⟨i, rfl, -, rfl⟩ |
    ⟨i, rfl, -, -, rfl⟩ | ⟨i, rfl, -, -, rfl⟩ := exec_cases h
  · obtain rfl := answer rfl
    exact .inl ⟨only, rfl⟩
  · obtain rfl := answer rfl
    exact .inr (.inr ⟨rfl, by simp [answerErr, Nat.not_le.mpr hn, inert]⟩)
  · obtain rfl := answer rfl
    exact .inr (.inr ⟨rfl, activeErr_of_active _ active⟩)
  · obtain rfl := answer effect.rspLog
    exact .inr (.inl ⟨i, b, ok, ring, rfl, active, effect, rfl⟩)
  · obtain rfl := answer rfl
    exact .inr (.inr ⟨rfl, by simp [answerErr, activeErr_of_active _ active, nonempty]⟩)
  · obtain rfl := answer rfl
    exact .inr (.inr ⟨rfl, rfl⟩)
  · exact (silent rfl).elim
  · exact (silent rfl).elim
  · exact (silent (irqDone_rspLog i s)).elim

/-- Under the invariant the error answered is the table's. -/
theorem exec_err {ins : Instr} {s t : State} {r : Rsp} (hs : Inv s) (h : exec ins s = .next t)
    (answered : t.rspLog = s.rspLog ++ [r]) : r.err = answerErr s ins := by
  obtain ⟨only, -⟩ | ⟨i, b, ok, ring, rfl, active, effect, err⟩ | ⟨err, ok⟩ := exec_answer_cases h answered
  · exact onlyAnswer_err only
  · have overrun := effect.ring.overrun_iff (hs.insts i (lt_of_active active)).tx
    rw [err, answerErr, activeErr_of_active _ active]
    cases ok with
    | false => exact (if_pos (overrun.mp rfl)).symm
    | true => exact (if_neg fun tooMany => nomatch overrun.mpr tooMany).symm
  · rw [err, ok]

theorem answerErr_eq_invalidArgument (s : State) (ins : Instr) :
    answerErr s ins = .invalidArgument ↔
      (∃ i cs crnl, ins = .init i cs crnl ∧ s.nInst ≤ i) ∨ (∃ i, ins = .start i ∧ s.nInst ≤ i) ∨
      (∃ i b, ins = .putc i b ∧ s.nInst ≤ i) ∨ (∃ i, ins = .getc i ∧ s.nInst ≤ i) ∨
      (∃ i sel, ins = .stat i sel ∧ (s.nInst ≤ i ∨ sel = .illegal)) ∨ (∃ k, ins = .cntrd k ∧ 6 ≤ k) := by
  cases ins with
  | init => simp [answerErr, ite_eq_iff]
  | start | putc | getc => simp [answerErr, activeErr_eq_invalidArgument, ite_eq_iff]
  | stat => simp [answerErr, or_iff_not_imp_left]
  | cntrd => simp [answerErr]
  | gdc | cntrst | irq => simp [answerErr]

theorem answerErr_eq_invalidState (s : State) (ins : Instr) :
    answerErr s ins = .invalidState ↔
      ∃ i cs crnl, ins = .init i cs crnl ∧ i < s.nInst ∧ (s.inst i).active = true := by
  cases ins with
  | start | putc | getc => simp [answerErr, activeErr_eq_body, ite_eq_iff]
  | init | stat | cntrd => simp [answerErr, ite_eq_iff]
  | gdc | cntrst | irq => simp [answerErr]

theorem answerErr_eq_badInstance (s : State) (ins : Instr) :
    answerErr s ins = .badInstance ↔
      ∃ i, i < s.nInst ∧ (s.inst i).active = false ∧ (ins = .start i ∨ ins = .getc i ∨ ∃ b, ins = .putc i b) := by
  cases ins with
  | start | putc | getc => simp [answerErr, activeErr_eq_badInstance, ite_eq_iff]
  | init | stat | cntrd => simp [answerErr, ite_eq_iff]
  | gdc | cntrst | irq => simp [answerErr]

theorem answerErr_eq_overrun (s : State) (ins : Instr) :
    answerErr s ins = .overrun ↔
      (∃ i, ins = .getc i ∧ (s.inst i).active = true ∧ (s.inst i).rx.cnt = 0) ∨
      (∃ i b, ins = .putc i b ∧ (s.inst i).active = true ∧
        s.txCap < (s.inst i).tx.cnt + (putcBytes (s.inst i).cfgCrnl b).length) := by
  cases ins with
  | start | putc | getc => simp [answerErr, activeErr_eq_body]
  | init | stat | cntrd => simp [answerErr, ite_eq_iff]
  | gdc | cntrst | irq => simp [answerErr]

/-- Settles O55: the error answered is the table's, and each of the four errors has its rows of the table. -/
theorem errorsExactlyWhen : Obligations.ErrorsExactlyWhen := by
  intro ins s t r hs h answered
  rw [exec_err hs h answered]
  exact ⟨answerErr_eq_invalidArgument s ins, answerErr_eq_invalidState s ins, answerErr_eq_badInstance s ins,
    answerErr_eq_overrun s ins⟩

/-! ### What an error leaves behind (60 R154) -/

/-- The two ways PUTC's pushes fail: on a full buffer, or on the last slot with the carriage return queued. -/
theorem PutcRing.overrun {cap : Nat} {c : Inst} {b : Byte} {r : Ring} (h : PutcRing cap c b false r) :
    (c.tx.cnt = cap ∧ r = c.tx) ∨
      (translates c b = true ∧ c.tx.cnt + 1 = cap ∧ r = pushedRing cap c.tx carriageReturn) := by
  obtain ⟨no, -⟩ | ⟨no, -⟩ | ⟨-, translated, -, last, hr⟩ | ⟨-, full, hr⟩ := h
  · exact absurd no nofun
  · exact absurd no nofun
  · exact .inr ⟨translated, last, hr⟩
  · exact .inl ⟨full, hr⟩

/-- A PUTC that only answers is on an instance that is not active: no Overrun. -/
theorem onlyAnswer_putc_err {i : Nat} {b : Byte} {s : State} {r : Rsp} (h : onlyAnswer (.putc i b) s = some r) :
    r.err ≠ .overrun := by
  simp only [onlyAnswer] at h
  repeat' split at h
  all_goals cases h
  all_goals decide

/-- What PUTC's Overrun leaves: one count on CNT[4], TXEIE and HALLOG as before, and the registry as before or one
carriage return queued, which only a line feed under translation does. -/
theorem PutcEffect.overrun {i : Nat} {b : Byte} {s t : State} {ring : Ring} (hs : Inv s)
    (active : (s.inst i).active = true) (h : exec (.putc i b) s = .next t) (effect : PutcEffect i b s t false ring) :
    t.cnt = { s.cnt with txOvr := satInc s.cnt.txOvr } ∧
      (t.inst i).txeie = (s.inst i).txeie ∧ t.halLog = s.halLog ∧
      (t.insts = s.insts ∨ (b = 0x0A ∧ (s.inst i).cfgCrnl = true ∧ queued .tx i t = queued .tx i s ++ [0x0D])) := by
  have hn := lt_of_active active
  have nonempty : (s.inst i).tx.cnt ≠ 0 := by
    have := hs.rxCap_pos
    have := hs.cap_lt
    obtain ⟨full, -⟩ | ⟨-, last, -⟩ := effect.ring.overrun <;> omega
  have done := effect.eq_putcDone hn
  rw [putcDone_nonempty _ _ nonempty] at done
  have txeie : (t.inst i).txeie = (s.inst i).txeie := by simp [effect.inst, nonempty]
  refine ⟨effect.cnt, txeie, by rw [done]; rfl, ?_⟩
  obtain ⟨-, rfl⟩ | ⟨translated, last, rfl⟩ := effect.ring.overrun
  · left
    rw [done, setInst_inst]
  · right
    obtain ⟨crnl, lf⟩ := (translates_iff _ _).mp translated
    refine ⟨lf, crnl, ?_⟩
    have appended := contents_pushed carriageReturn (hs.insts i hn).tx (hs.linked active .tx)
      (show (s.inst i).tx.cnt ≠ s.txCap by omega)
    rw [queued_next h, queued_active active, effect.inst, if_pos rfl, if_pos active]
    exact appended

/-- Settles O56: an error is a plain answer, but for PUTC's Overrun, which leaves what `PutcEffect.overrun` says. -/
theorem errorsLeaveState : Obligations.ErrorsLeaveState := by
  intro ins s t r hs h answered error
  obtain ⟨only, rfl⟩ | ⟨i, b, ok, ring, rfl, active, effect, err⟩ | ⟨noError, -⟩ := exec_answer_cases h answered
  · refine ⟨fun _ => rfl, ?_⟩
    rintro i b rfl overrun
    exact absurd overrun (onlyAnswer_putc_err only)
  · cases ok with
    | true => exact absurd err error
    | false =>
      refine ⟨?_, ?_⟩
      · rintro (other | notPutc)
        · exact absurd err other
        · exact absurd rfl (notPutc i b)
      · rintro i b ⟨⟩ -
        exact effect.overrun hs active h
  · exact absurd noError error

end Sys2Proof.Machine
end

section
/-! Reset and hazards (70): the state after reset, the invariant there, the bring-up of an instance, and why no run
shows the values reset leaves unspecified. -/

namespace Sys2Proof.Machine

/-! ### The state after reset (70 R181) -/

/-- Settles O42: the parameters and each entry are those the reset state is built from. -/
theorem resetValues : Obligations.ResetValues :=
  fun p d => ⟨resetWith_params p d, rfl, fun _ hi => resetWith_inst p d hi⟩

/-- Settles O43: the reset state of every configuration meets the invariant, CFG_T with the model's draw among them. -/
theorem resetInv : Obligations.ResetInv :=
  ⟨resetWith_inv (by decide) (standard_drawOk (by decide) (by decide)), fun _ _ => resetWith_inv⟩

/-! ### Bring-up (70 R185) -/

/-- The entry INIT then START leave: both enables on, TXEIE off, the stream published as asked, both rings zero. -/
def Inst.broughtUp (cs crnl : Bool) : Inst :=
  { active := true, cfgCs := cs, cfgCrnl := crnl, streamPub := cs, lineEn := true, rxie := true, txeie := false,
    rx := Ring.zero, tx := Ring.zero }

@[simp] theorem initDone_nInst (i : Nat) (cs crnl : Bool) (s : State) : (initDone i cs crnl s).nInst = s.nInst :=
  nInst_setInst s i _

/-- INIT then START of an inert instance both answer OK and leave the entry brought up. -/
theorem init_start_inert {s : State} {i : Nat} (cs crnl : Bool) (hs : Inv s) (hn : i < s.nInst)
    (inert : (s.inst i).active = false) :
    ∃ t, execAll [.init i cs crnl, .start i] s = .next t ∧ t.rspLog = s.rspLog ++ [⟨.ok, 0⟩, ⟨.ok, 0⟩] ∧
      t.inst i = Inst.broughtUp cs crnl := by
  have hn' : i < (respond ⟨.ok, 0⟩ (initDone i cs crnl s)).nInst := by simpa using hn
  have entry := initDone_inst (cs := cs) (crnl := crnl) hn i
  have first : exec (.init i cs crnl) s = _ := execInit_inert cs crnl hn inert
  have second : exec (.start i) (respond ⟨.ok, 0⟩ (initDone i cs crnl s)) = _ :=
    execStart_active hn' (by rw [respond_inst, entry, if_pos rfl])
  refine ⟨_, (execAll_cons_eq first _).trans (execAll_cons_eq second []), ?_, ?_⟩
  · simp [startDone, initDone]
  · rw [respond_inst, startDone_inst hn', respond_inst, entry, clearedRing_eq (hs.insts i hn).rx,
      clearedRing_eq (hs.insts i hn).tx]
    simp [Inst.broughtUp]

/-- Settles O16: an instance is inert at reset, where INIT then START bring it up and START alone is refused. -/
theorem bringUpFromReset : Obligations.BringUpFromReset := by
  intro p d i cs crnl hp hd hi
  have hn : i < (State.resetWith p d).nInst := by simpa using hi
  have inert : ((State.resetWith p d).inst i).active = false := by rw [resetWith_inst p d hi]; rfl
  refine ⟨?_, (inertInstanceRefused _ i 0 _ (.inl rfl)).2 hn inert⟩
  obtain ⟨t, run, answers, entry⟩ := init_start_inert cs crnl (resetWith_inv hp hd) hn inert
  refine ⟨t, run, answers, ?_⟩
  simp only [State.bufByte, entry]
  exact ⟨rfl, rfl, rfl, rfl, rfl, rfl, rfl, rfl, rfl, rfl, rfl, fun _ _ => rfl, fun _ _ => rfl⟩

/-! ### What a state shows: the registers of inert instances hidden (70 R181)

Two states show the same when they are equal once every register an inert instance hides is cleared. An operation on the
cleared state ends in the cleared end state, so two runs from states that show the same end in states that do. -/

/-- An entry with what an inert instance hides cleared: every register but ACTIVE and STREAM_PUB. -/
def Inst.seen (c : Inst) : Inst := if c.active then c else { Inst.absent with streamPub := c.streamPub }

/-- A state with what its inert instances hide cleared. -/
def State.seen (s : State) : State := { s with insts := s.insts.map Inst.seen }

theorem Inst.seen_of_active {c : Inst} (active : c.active = true) : c.seen = c := if_pos active

theorem Inst.seen_of_inert {c : Inst} (inert : c.active = false) :
    c.seen = { Inst.absent with streamPub := c.streamPub } := by
  simp [Inst.seen, inert]

@[simp] theorem Inst.seen_active (c : Inst) : c.seen.active = c.active := by
  cases h : c.active with
  | true => rw [Inst.seen_of_active h, h]
  | false => rw [Inst.seen_of_inert h]; rfl

@[simp] theorem Inst.seen_streamPub (c : Inst) : c.seen.streamPub = c.streamPub := by
  unfold Inst.seen
  split <;> rfl

@[simp] theorem seen_rxCap (s : State) : s.seen.rxCap = s.rxCap := rfl
@[simp] theorem seen_txCap (s : State) : s.seen.txCap = s.txCap := rfl
@[simp] theorem seen_nextAnswer (s : State) : s.seen.nextAnswer = s.nextAnswer := rfl
@[simp] theorem seen_nInst (s : State) : s.seen.nInst = s.nInst := by simp [State.seen, State.nInst]
@[simp] theorem seen_params (s : State) : s.seen.params = s.params := by simp [State.params, State.seen, State.nInst]

@[simp] theorem seen_inst (s : State) (i : Nat) : s.seen.inst i = (s.inst i).seen := by
  simp only [State.inst, State.seen, List.getElem?_map]
  cases s.insts[i]? <;> rfl

/-- An active instance hides nothing. -/
theorem seen_inst_of_active {s : State} {i : Nat} (active : (s.inst i).active = true) : s.seen.inst i = s.inst i := by
  rw [seen_inst, Inst.seen_of_active active]

@[simp] theorem setInst_seen (i : Nat) (c : Inst) (s : State) : (s.setInst i c).seen = s.seen.setInst i c.seen := by
  simp [State.seen, State.setInst, List.map_set]

@[simp] theorem respond_seen (r : Rsp) (s : State) : (respond r s).seen = respond r s.seen := rfl
@[simp] theorem logHal_seen (t : HalTx) (s : State) : (logHal t s).seen = logHal t s.seen := rfl
@[simp] theorem satInc16_seen (k : CounterId) (s : State) : (satInc16 k s).seen = satInc16 k s.seen := rfl

@[simp] theorem takeAnswer_seen (s : State) : s.takeAnswer.seen = s.seen.takeAnswer := by
  simp only [State.takeAnswer, State.seen]
  cases s.halIn <;> rfl

@[simp] theorem classify_seen (sr : Byte) (s : State) : (classify sr s).seen = classify sr s.seen := by
  have countIf_seen (b : Bool) (k : CounterId) (s : State) : (countIf b k s).seen = countIf b k s.seen := by
    cases b <;> rfl
  simp only [classify, countIf_seen]

/-- Clearing what inert instances hide keeps the invariant: a cleared entry is all zeros but for STREAM_PUB. -/
theorem Inv.seen {s : State} (hs : Inv s) : Inv s.seen where
  params := by rw [seen_params]; exact hs.params
  insts i hi := by
    have entry := hs.insts i (by simpa using hi)
    rw [seen_inst, seen_rxCap, seen_txCap]
    cases h : (s.inst i).active with
    | true => rw [Inst.seen_of_active h]; exact entry
    | false =>
      rw [Inst.seen_of_inert h]
      exact ⟨zero_inv (hs.cap_pos .rx), zero_inv (hs.cap_pos .tx), nofun, nofun, nofun, nofun,
        by rw [entry.published, h]; rfl⟩

/-! ### Operations and runs show only what is seen -/

/-- No plain answer reads a register an inert instance hides. -/
theorem onlyAnswer_seen (ins : Instr) (s : State) : onlyAnswer ins s.seen = onlyAnswer ins s := by
  have activeSame (i : Nat) : (s.seen.inst i).active = (s.inst i).active := by simp
  cases ins with
  | gdc | cntrd | cntrst | irq => rfl
  | init i cs crnl | start i | putc i b => simp only [onlyAnswer, seen_nInst, activeSame]
  | getc i =>
    cases h : (s.inst i).active with
    | true => simp only [onlyAnswer, seen_nInst, seen_inst_of_active h]
    | false => simp [onlyAnswer, h]
  | stat i sel =>
    cases h : (s.inst i).active with
    | true => cases sel <;> simp only [onlyAnswer, statVal, seen_nInst, seen_inst_of_active h]
    | false => simp [onlyAnswer, h]

/-- INIT leaves nothing of the entry it finds: with both arrays cleared, the entry it writes is a fixed one. -/
theorem initDone_seen {i : Nat} {s : State} (cs crnl : Bool) (hs : Inv s) (hn : i < s.nInst) :
    (initDone i cs crnl s).seen = initDone i cs crnl s.seen := by
  have entry := hs.insts i hn
  have entrySeen := hs.seen.insts i (by simpa using hn)
  rw [initDone, initDone, clearedRing_eq entry.rx, clearedRing_eq entry.tx, clearedRing_eq entrySeen.rx,
    clearedRing_eq entrySeen.tx]
  simp [State.seen, State.setInst, List.map_set, Inst.seen]

theorem startDone_seen {i : Nat} {s : State} (active : (s.inst i).active = true) :
    (startDone i s).seen = startDone i s.seen := by
  rw [startDone, startDone, seen_inst_of_active active]
  simp [State.seen, State.setInst, List.map_set, Inst.seen, active]

theorem putcDone_seen {i : Nat} {s : State} (ok : Bool) (r : Ring) (active : (s.inst i).active = true) :
    (putcDone i ok r s).seen = putcDone i ok r s.seen := by
  rw [putcDone, putcDone, seen_inst_of_active active]
  simp [State.seen, List.map_set, Inst.seen, active]

/-- On an inert instance the guard's write of LINE_EN is hidden. -/
theorem halLineDisable_seen {i : Nat} {s : State} (inert : (s.inst i).active = false) :
    (halLineDisable i s).seen = halLineDisable i s.seen := by
  simp [halLineDisable, Inst.seen, inert, Inst.absent]

theorem afterReceive_seen {i : Nat} {s : State} (sr : Byte) (active : (s.inst i).active = true) :
    (afterReceive i sr s).seen = afterReceive i sr s.seen := by
  rw [afterReceive, afterReceive, seen_inst_of_active active, seen_rxCap, seen_nextAnswer]
  split
  · split <;> simp [halDataRead, Inst.seen, active]
  · rfl

theorem afterTransmit_seen {i : Nat} {s : State} (sr : Byte) (active : (s.inst i).active = true) :
    (afterTransmit i sr s).seen = afterTransmit i sr s.seen := by
  rw [afterTransmit, afterTransmit, seen_inst_of_active active]
  split
  · split <;> simp [halTxeieDisable, halDataWrite, Inst.seen, active]
  · rfl

theorem afterReceive_active {i : Nat} {s : State} (sr : Byte) (active : (s.inst i).active = true) :
    ((afterReceive i sr s).inst i).active = true := by
  rw [afterReceive_inst (lt_of_active active)]
  split <;> exact active

theorem irqDone_seen {i : Nat} {s : State} (active : (s.inst i).active = true) :
    (irqDone i s).seen = irqDone i s.seen := by
  have active' : ((logHal (.statusRead i s.nextAnswer) s.takeAnswer).inst i).active = true := by simpa using active
  rw [irqDone, irqDone, afterTransmit_seen _ (afterReceive_active _ active'), afterReceive_seen _ active']
  simp

/-- How PUTC's pushes end is determined by the ring and the byte. -/
theorem PutcRing.unique {cap : Nat} {c : Inst} {b : Byte} {ok ok' : Bool} {r r' : Ring} (h : PutcRing cap c b ok r)
    (h' : PutcRing cap c b ok' r') (hi : RingInv cap c.tx) : ok = ok' ∧ r = r' := by
  have hle := hi.cnt_le
  obtain ⟨rfl, plain, room, rfl⟩ | ⟨rfl, translated, room, room2, rfl⟩ | ⟨rfl, translated, -, last, rfl⟩ |
    ⟨rfl, full, rfl⟩ := h'
  · exact h.byte plain (by omega)
  · exact h.pair translated (by omega)
  · exact h.orphan translated last
  · exact h.full full

theorem exec_putc_seen {i : Nat} {b : Byte} {s t : State} (hs : Inv s) (active : (s.inst i).active = true)
    (h : exec (.putc i b) s = .next t) : exec (.putc i b) s.seen = .next t.seen := by
  have seen := seen_inst_of_active active
  obtain ⟨ok, r, done, ring⟩ := exec_putc_active b hs active
  obtain ⟨ok', r', done', ring'⟩ := exec_putc_active b hs.seen (by rw [seen]; exact active)
  rw [seen] at ring'
  obtain ⟨rfl, rfl⟩ := ring.unique ring' (hs.insts i (lt_of_active active)).tx
  rw [done', ← next_inj (done.symm.trans h), putcDone_seen ok r active]

/-- An operation on what is seen of a state ends in what is seen of the end state. -/
theorem exec_seen {ins : Instr} {s t : State} (hs : Inv s) (h : exec ins s = .next t) :
    exec ins s.seen = .next t.seen := by
  obtain ⟨r, hr, rfl⟩ | ⟨i, cs, crnl, rfl, hn, inert, rfl⟩ | ⟨i, rfl, hn, active, rfl⟩ |
    ⟨i, b, _, _, rfl, -, active, -⟩ | ⟨i, rfl, -, active, nonempty, rfl⟩ | ⟨rfl, rfl⟩ | ⟨i, rfl, hn, rfl⟩ | ⟨i, rfl, hn, inert, rfl⟩ |
    ⟨i, rfl, -, active, rfl⟩ := exec_cases h
  · exact exec_onlyAnswer ((onlyAnswer_seen ins s).trans hr)
  · rw [respond_seen, initDone_seen cs crnl hs hn]
    exact execInit_inert cs crnl (by simpa using hn) (by simpa using inert)
  · rw [respond_seen, startDone_seen active]
    exact execStart_active (by simpa using hn) (by simpa using active)
  · exact exec_putc_seen hs active h
  · have popped := exec_getc_nonempty (i := i) hs.seen (by simpa using active)
      (by rw [seen_inst_of_active active]; exact nonempty)
    rw [popped, seen_inst_of_active active]
    simp [Inst.seen, active]
  · rfl
  · exact exec_irq_outOfRange (by simpa using hn)
  · rw [halLineDisable_seen inert]
    exact exec_irq_inert (by simpa using hn) (by simpa using inert)
  · rw [irqDone_seen active]
    exact exec_irq_active hs.seen (by simpa using active)

theorem step_seen {s t : State} (hs : Inv s) (h : step s = .next t) : step s.seen = .next t.seen := by
  obtain ⟨idle, e⟩ | ⟨w, rest, err, taken, reserved, e⟩ | ⟨w, rest, ins, taken, decoded, e⟩ := step_cases s <;>
    rw [e] at h
  · rw [← next_inj h]
    exact nothingPresentedNothingDone s.seen idle
  · rw [← next_inj h]
    simp [step, takeInput, State.seen, taken, reserved, rejectReserved, raiseError, respond]
  · rw [stepRunsDecodedInstruction s.seen w rest ins taken decoded]
    exact exec_seen (inv_inputs rest hs) h

theorem run_succ {M : Host.Core} {s t : M.State} (first : M.step s = .next t) (k : Nat) :
    M.run (k + 1) s = M.run k t := by
  simp only [Host.Core.run, first]

/-- A run from a state that meets the invariant completes, and what is seen of it is the run from what is seen. -/
theorem run_seen (k : Nat) {s : State} (hs : Inv s) :
    ∃ t, Host.Core.run Sys2Proof.core k s = .next t ∧ Host.Core.run Sys2Proof.core k s.seen = .next t.seen := by
  induction k generalizing s with
  | zero => exact ⟨s, rfl, rfl⟩
  | succ k ih =>
    obtain ⟨s', first⟩ := step_completes hs
    obtain ⟨t, run, runSeen⟩ := ih (step_inv hs first)
    exact ⟨t, (run_succ (M := Sys2Proof.core) first k).trans run,
      (run_succ (M := Sys2Proof.core) (step_seen hs first) k).trans runSeen⟩

/-- Two states of which the same is seen differ at most in what inert instances hide. -/
theorem sameSeen_of_seen_eq {s t : State} (h : s.seen = t.seen) : SameSeen s t := by
  have entrySeen (i : Nat) : (s.inst i).seen = (t.inst i).seen := by rw [← seen_inst, h, seen_inst]
  have active (i : Nat) : (s.inst i).active = (t.inst i).active := by
    simpa using congrArg Inst.active (entrySeen i)
  exact {
    params := by simpa using congrArg State.params h
    cnt := (congrArg State.cnt h :)
    inputs := (congrArg State.inputs h :)
    halIn := (congrArg State.halIn h :)
    draws := (congrArg State.draws h :)
    halLog := (congrArg State.halLog h :)
    rspLog := (congrArg State.rspLog h :)
    active := active
    streamPub := fun i => by simpa using congrArg Inst.streamPub (entrySeen i)
    entry := fun i ha => by
      rw [← Inst.seen_of_active ha, entrySeen i, Inst.seen_of_active ((active i).symm.trans ha)] }

/-- At reset every instance is inert, so nothing drawn is seen (70 R181). -/
theorem resetWith_seen (p : Params) (d e : Nat → ResetDraw) :
    (State.resetWith p d).seen = (State.resetWith p e).seen := by
  simp only [State.seen, State.resetWith, List.map_map]
  rfl

/-- Settles O60: both runs are, in what is seen of them, the one run from what is seen of either reset. -/
theorem resetDrawsUnseen : Obligations.ResetDrawsUnseen := by
  intro p d e ws answers k t hp hd he run
  have start (d : Nat → ResetDraw) (hd : DrawOk p d) :
      Inv { State.resetWith p d with inputs := ws, halIn := answers } :=
    inv_of_insts (s := State.resetWith p d) rfl rfl rfl rfl (resetWith_inv hp hd)
  have startSeen : State.seen { State.resetWith p d with inputs := ws, halIn := answers } =
      State.seen { State.resetWith p e with inputs := ws, halIn := answers } :=
    congrArg (fun s : State => { s with inputs := ws, halIn := answers }) (resetWith_seen p d e)
  obtain ⟨t', runD, seenD⟩ := run_seen k (start d hd)
  obtain ⟨u, runE, seenE⟩ := run_seen k (start e he)
  obtain rfl : t' = t := next_inj (runD.symm.trans run)
  rw [startSeen] at seenD
  exact ⟨u, runE, sameSeen_of_seen_eq (next_inj (seenD.symm.trans seenE))⟩

end Sys2Proof.Machine
end
